-- ==== Sys2Proof/Word.lean ====
section
/-! DEFINITION. The word types of the core: every value the spec treats as bits (R8, R80, R85, R86). -/

namespace Sys2Proof

/-- A colour intensity, 8 bits (R85). -/
abbrev Intensity := BitVec 8

/-- A GammaValue, a packed RowBuffer word or the ConfigRegister, 16 bits (R22, R24, R28). -/
abbrev Word := BitVec 16

/-- A host command word, 48 bits (R80). -/
abbrev CommandWord := BitVec 48

/-- A Color, "three 8-bit channels (r,g,b)" (R21, R85). -/
structure Color where
  r : Intensity
  g : Intensity
  b : Intensity
  deriving DecidableEq, Repr

/-- Black, the Color whose three intensities are 0 (R137). -/
def Color.black : Color := ⟨0, 0, 0⟩

end Sys2Proof
end

