-- ==== Sys2Proof/Syntax.lean ====
section
/-! DEFINITION. The syntax of the core: the thirteen operations of spec/opcode_table.json and the requests that carry them. -/

namespace Sys2Proof

/-- The operations of spec/opcode_table.json (R5), one constructor per row. -/
inductive Instr where
  /-- INIT (R201). -/
  | init
  /-- FLUSH (R131). -/
  | flush
  /-- SET_COLOR `index, r, g, b` (R121). -/
  | setColor (index : BitVec 16) (r g b : Intensity)
  /-- SET_COLOR_ALL `r, g, b` (R123). -/
  | setColorAll (r g b : Intensity)
  /-- WRCFG `gain8` (R205). -/
  | wrcfg (gain8 : BitVec 8)
  /-- TICK, the event of the refresh timer (R177). -/
  | tick
  /-- LOOKUP `v` (R110). -/
  | lookup (v : Intensity)
  /-- ENC `r, g, b, p` (R130). -/
  | enc (r g b : Intensity) (p : BitVec 4)
  /-- PULSE `r, g, b, le` (R146). -/
  | pulse (r g b le : Bool)
  /-- ROW_TRANSFER of a row (R150). -/
  | rowTransfer (row : Nat)
  /-- GLOBAL_LATCH (R155). -/
  | globalLatch
  /-- PWM_RESET (R157). -/
  | pwmReset
  /-- CONFIG_WRITE of a gain (R160). DEDUCED (log 14): the gain operand is the 8 bits of WRCFG's port field (R82). -/
  | configWrite (gain : BitVec 8)
  deriving DecidableEq, Repr

/-- One request the core takes as one atomic step (R60). The first two are what the outside world can send (R206, R240);
the others drive one component directly (DESIGN CHOICE, log 8), in the bits the opcode table gives the row where those bits
are the operands. -/
inductive Request where
  /-- A 48-bit word on the command port (R80). -/
  | command (w : CommandWord)
  /-- The timer's one-bit request (R84). -/
  | tick
  /-- The address port of the gamma ROM (R110). -/
  | rom (v : Intensity)
  /-- The Encoder's 28 input bits `rrrrrrrrggggggggbbbbbbbbpppp` (R130). -/
  | encoder (w : BitVec 28)
  /-- The four levels `rgbl` of one cycle (R88, R146). -/
  | pulse (w : BitVec 4)
  /-- A row transfer of the named row (R150). -/
  | rowTransfer (row : Nat)
  /-- A global latch (R155). -/
  | globalLatch
  /-- A PWM-counter reset (R157). -/
  | pwmReset
  /-- A configuration write with the named gain (R160). -/
  | configWrite (gain : BitVec 8)
  deriving DecidableEq, Repr

/-- The requests that exist outside the core: host commands and the timer's request (R6, R206). -/
def Request.external : Request → Bool
  | .command _ => true
  | .tick => true
  | .rom _ => false
  | .encoder _ => false
  | .pulse _ => false
  | .rowTransfer _ => false
  | .globalLatch => false
  | .pwmReset => false
  | .configWrite _ => false

/-- The operations that a host command or the timer can start (R5, R206). -/
def Instr.external : Instr → Bool
  | .init => true
  | .flush => true
  | .setColor _ _ _ _ => true
  | .setColorAll _ _ _ => true
  | .wrcfg _ => true
  | .tick => true
  | .lookup _ => false
  | .enc _ _ _ _ => false
  | .pulse _ _ _ _ => false
  | .rowTransfer _ => false
  | .globalLatch => false
  | .pwmReset => false
  | .configWrite _ => false

end Sys2Proof
end

