-- ==== Sys2Proof/Decode.lean ====
section
/-! DEFINITION. Decoding (30_encoding.md R80 to R84, R88) and, after it, the encoder. A request is decoded to an operation or
rejected by name. The command word is the spec's encoding; the other requests carry the opcode table's bits where those bits
are the operands (log 8). -/

namespace Sys2Proof

/-- Why a request is rejected (R83); `step` answers it with `ILLEGAL_COMMAND` (R222). -/
inductive Reject where
  /-- The operation code is none of `0x01` to `0x05`. -/
  | unassignedOp (op : BitVec 8)
  /-- The operation code is assigned and a reserved field is not 0. -/
  | reservedField (op : BitVec 8)
  deriving DecidableEq, Repr

/-- One row of the operation codes: `match` and `mask` of R81. -/
structure CommandRow where
  pattern : CommandWord
  mask : CommandWord
  deriving DecidableEq, Repr

namespace CommandRow

/-- "A word `W` selects a row when `W & mask = match`" (R81). -/
def selects (row : CommandRow) (w : CommandWord) : Bool := decide (w &&& row.mask = row.pattern)

/-- INIT (R81). -/
def init : CommandRow := ⟨0x010000000000#48, 0xFFFFFFFFFFFF#48⟩

/-- FLUSH (R81). -/
def flush : CommandRow := ⟨0x020000000000#48, 0xFFFFFFFFFFFF#48⟩

/-- SET_COLOR (R81). -/
def setColor : CommandRow := ⟨0x030000000000#48, 0xFF0000000000#48⟩

/-- SET_COLOR_ALL (R81). -/
def setColorAll : CommandRow := ⟨0x040000000000#48, 0xFFFFFF000000#48⟩

/-- WRCFG (R81). -/
def wrcfg : CommandRow := ⟨0x050000000000#48, 0xFFFFFFFFFF00#48⟩

/-- The five rows of R81. -/
def all : List CommandRow := [init, flush, setColor, setColorAll, wrcfg]

end CommandRow

namespace CommandWord

/-- `op`, bits 47:40 (R80). -/
def op (w : CommandWord) : BitVec 8 := w.extractLsb' 40 8

/-- `idx`, bits 39:24 (R80). -/
def idx (w : CommandWord) : BitVec 16 := w.extractLsb' 24 16

/-- `r`, bits 23:16 (R80). -/
def r (w : CommandWord) : BitVec 8 := w.extractLsb' 16 8

/-- `g`, bits 15:8 (R80). -/
def g (w : CommandWord) : BitVec 8 := w.extractLsb' 8 8

/-- `b`, and `gain8` of WRCFG, bits 7:0 (R80, R82). -/
def b (w : CommandWord) : BitVec 8 := w.extractLsb' 0 8

/-- `W[47:32]`, the `INFO` of an illegal word (R83). -/
def illegalInfo (w : CommandWord) : BitVec 16 := w.extractLsb' 32 16

end CommandWord

/-- The name of the rejection of a word that selects no row (R83). -/
def rejectCommand (w : CommandWord) : Reject :=
  if 1 ≤ (CommandWord.op w).toNat ∧ (CommandWord.op w).toNat ≤ 5 then .reservedField (CommandWord.op w)
  else .unassignedOp (CommandWord.op w)

/-- Decode a command word (R81, R82): total, and a word that selects no row is rejected by name (R83). -/
def decodeCommand (w : CommandWord) : Except Reject Instr :=
  if CommandRow.init.selects w then .ok .init
  else if CommandRow.flush.selects w then .ok .flush
  else if CommandRow.setColor.selects w then
    .ok (.setColor (CommandWord.idx w) (CommandWord.r w) (CommandWord.g w) (CommandWord.b w))
  else if CommandRow.setColorAll.selects w then
    .ok (.setColorAll (CommandWord.r w) (CommandWord.g w) (CommandWord.b w))
  else if CommandRow.wrcfg.selects w then .ok (.wrcfg (CommandWord.b w))
  else .error (rejectCommand w)

/-- Decode the Encoder's 28 input bits `rrrrrrrrggggggggbbbbbbbbpppp` (spec/opcode_table.json, ENC). -/
def decodeEncoder (w : BitVec 28) : Instr :=
  .enc (w.extractLsb' 20 8) (w.extractLsb' 12 8) (w.extractLsb' 4 8) (w.extractLsb' 0 4)

/-- Decode the four levels `rgbl` of one cycle (R88; spec/opcode_table.json, PULSE). -/
def decodePulse (w : BitVec 4) : Instr := .pulse (w.getLsbD 3) (w.getLsbD 2) (w.getLsbD 1) (w.getLsbD 0)

/-- Decode a request. -/
def decode : Request → Except Reject Instr
  | .command w => decodeCommand w
  | .tick => .ok .tick
  | .rom v => .ok (.lookup v)
  | .encoder w => .ok (decodeEncoder w)
  | .pulse w => .ok (decodePulse w)
  | .rowTransfer row => .ok (.rowTransfer row)
  | .globalLatch => .ok .globalLatch
  | .pwmReset => .ok .pwmReset
  | .configWrite gain => .ok (.configWrite gain)

/-- The request that the opcode table's word `w` of `nbits` bits stands for. The table numbers no bits that tell its
EVENT, INTERNAL and WIRE rows apart, and some of them have the same length in whole bytes: DESIGN CHOICE (log 9), under which
each row has a word. -/
def requestOfTableWord (nbits w : Nat) : Option Request :=
  if nbits = 1 then (if w = 1 then some .tick else none)
  else if nbits = 4 then some (.pulse (BitVec.ofNat 4 w))
  else if nbits = 7 then (if w < 16 then some .pwmReset else none)
  else if nbits = 8 then
    (if w = 1 then some .tick
     else if w = 0b0001111 then some .pwmReset
     else if w < 16 then some (.pulse (BitVec.ofNat 4 w))
     else some (.rom (BitVec.ofNat 8 w)))
  else if nbits = 16 then (if w = 0 then some .globalLatch else some (.rowTransfer 0))
  else if nbits = 28 then some (.encoder (BitVec.ofNat 28 w))
  else if nbits = 31 ∨ nbits = 32 then
    (if w < 65536 then some (.configWrite (BitVec.ofNat 8 (w / 16 % 64)))
     else if nbits = 32 then some (.encoder (BitVec.ofNat 28 w))
     else none)
  else some (.command (BitVec.ofNat 48 w))

/-- The instruction the decoder reads from a word of spec/opcode_table.json, none where it refuses. -/
def decodeTableWord (nbits w : Nat) : Option Instr :=
  match requestOfTableWord nbits w with
  | none => none
  | some req =>
    match decode req with
    | .ok i => some i
    | .error _ => none

/-! ## The encoder -/

/-- The command word with the five fields of R80, most significant first. -/
def commandWord (op : BitVec 8) (idx : BitVec 16) (r g b : BitVec 8) : CommandWord :=
  op.setWidth 48 <<< 40 ||| idx.setWidth 48 <<< 24 ||| r.setWidth 48 <<< 16 ||| g.setWidth 48 <<< 8 ||| b.setWidth 48

/-- The Encoder's input word (spec/opcode_table.json, ENC). -/
def encoderWord (r g b : Intensity) (p : BitVec 4) : BitVec 28 :=
  r.setWidth 28 <<< 20 ||| g.setWidth 28 <<< 12 ||| b.setWidth 28 <<< 4 ||| p.setWidth 28

/-- The four levels of one cycle (spec/opcode_table.json, PULSE). -/
def pulseWord (r g b le : Bool) : BitVec 4 :=
  (BitVec.ofBool r).setWidth 4 <<< 3 ||| (BitVec.ofBool g).setWidth 4 <<< 2 ||| (BitVec.ofBool b).setWidth 4 <<< 1 |||
    (BitVec.ofBool le).setWidth 4

/-- Encode an operation: the command word of R81 with its operands in the fields of R80, or the request of its port. -/
def encode : Instr → Request
  | .init => .command (commandWord 0x01 0 0 0 0)
  | .flush => .command (commandWord 0x02 0 0 0 0)
  | .setColor index r g b => .command (commandWord 0x03 index r g b)
  | .setColorAll r g b => .command (commandWord 0x04 0 r g b)
  | .wrcfg gain8 => .command (commandWord 0x05 0 0 0 gain8)
  | .tick => .tick
  | .lookup v => .rom v
  | .enc r g b p => .encoder (encoderWord r g b p)
  | .pulse r g b le => .pulse (pulseWord r g b le)
  | .rowTransfer row => .rowTransfer row
  | .globalLatch => .globalLatch
  | .pwmReset => .pwmReset
  | .configWrite gain => .configWrite gain

end Sys2Proof
end

