-- ==== Sys2Proof/Machine/Memory.lean ====
section
/-! DEFINITION. Element-addressed memory (20_memory.md R50, R52): a list of (index, element) pairs in one canonical form,
indices strictly rising and no entry equal to what an unlisted index reads as (`dflt`). -/

namespace Sys2Proof.Machine

/-- A memory space with elements of type `α`, keyed by element index (R50). -/
abbrev Mem (α : Type) := List (Nat × α)

namespace Mem

variable {α : Type}

/-- `MemRead(space, a, 1)` (R52): the element at index `a`; an unlisted index reads as `dflt`. -/
def read (dflt : α) : Mem α → Nat → α
  | [], _ => dflt
  | (k, v) :: rest, a => if k = a then v else read dflt rest a

/-- Put an entry at its place in a list of rising indices. -/
def insert (a : Nat) (v : α) : Mem α → Mem α
  | [] => [(a, v)]
  | (k, x) :: rest =>
    if a < k then (a, v) :: (k, x) :: rest
    else if a = k then (a, v) :: rest
    else (k, x) :: insert a v rest

/-- Drop the entry of an index. -/
def erase (a : Nat) : Mem α → Mem α
  | [] => []
  | (k, x) :: rest => if k = a then erase a rest else (k, x) :: erase a rest

/-- `MemWrite(space, a, 1, v)` (R52): writing what an unlisted index reads as removes the entry. -/
def write [DecidableEq α] (dflt : α) (m : Mem α) (a : Nat) (v : α) : Mem α :=
  if v = dflt then erase a m else insert a v m

/-- The indices of a memory rise strictly, all of them above `lo`. -/
def risingFrom : Nat → Mem α → Bool
  | _, [] => true
  | lo, (k, _) :: rest => decide (lo ≤ k) && risingFrom (k + 1) rest

/-- The canonical form: indices strictly rising, no entry equal to `dflt`. -/
def wf [DecidableEq α] (dflt : α) (m : Mem α) : Bool := risingFrom 0 m && m.all fun e => decide (e.2 ≠ dflt)

/-- Every listed index is below `size`: the space has no other index (R50). -/
def inRange (size : Nat) (m : Mem α) : Bool := m.all fun e => decide (e.1 < size)

/-- The memory of `size` elements whose element `a` is `f a`. -/
def ofFn [DecidableEq α] (dflt : α) (size : Nat) (f : Nat → α) : Mem α :=
  (List.range size).filterMap fun a => if f a = dflt then none else some (a, f a)

end Mem

end Sys2Proof.Machine
end

