-- ==== Sys2Proof/Config.lean ====
section
/-! DEFINITION. The configuration record of the core (00_scope.md R7): what is fixed at build time. Every literal the spec
gives stands here and not in a step function. -/

namespace Sys2Proof

/-- A PhysicalPosition `(row, column)` (R11, R23). -/
structure Position where
  row : Nat
  col : Nat
  deriving DecidableEq, Repr

/-- The configuration record (R7): every OPEN parameter, and the two parameters of which D0 gives the reference value.
Its well-formedness is `Config.wf` (R57). -/
structure Config where
  /-- `ROW_COUNT`, number of physical rows. -/
  rowCount : Nat
  /-- `CHANNELS_PER_ROW`, number of columns of a row. -/
  channelsPerRow : Nat
  /-- `LED_COUNT`, number of logical LEDs. -/
  ledCount : Nat
  /-- The ROM `POS` (R23): entry `i` is the position of LogicalLED `i`. -/
  pos : List Position
  /-- The ROM `GAMMA` (R22): entry `v` is the GammaValue of intensity `v`. -/
  gamma : List Word
  /-- `PWM_MAX`, the last entry of `GAMMA` (R111). -/
  pwmMax : Word
  /-- `TICK_HZ`; no rule uses it (R280). -/
  tickHz : Nat
  /-- `DEFAULT_GAIN`, 6 bits (R57 (f)). -/
  defaultGain : BitVec 8
  /-- `CONFIG_DEFAULT_BASE`, the template of the ConfigRegister (R87). -/
  configDefaultBase : Word
  /-- `GL_LATCH_FROM`, first cycle of the global latch with the latch raised (R90). -/
  glLatchFrom : Nat
  /-- `RST_HIGH_CYCLES`, cycles of the PWM reset with the latch raised (R91). -/
  rstHighCycles : Nat
  /-- `R_BIT`, place of the red bit in a packed word (R86). -/
  rBit : Nat
  /-- `G_BIT`, place of the green bit in a packed word (R86). -/
  gBit : Nat
  /-- `B_BIT`, place of the blue bit in a packed word (R86). -/
  bBit : Nat
  deriving DecidableEq, Repr

namespace Config

/-- `BITS_PER_CHANNEL`, the constant 16 (R7). -/
@[simp] abbrev bitsPerChannel (_c : Config) : Nat := 16

/-- `GL_CYCLES`, the constant 16 (R7, R90). -/
@[simp] abbrev glCycles (_c : Config) : Nat := 16

/-- `RST_LOW_CYCLES`, the constant 3 (R7, R91). -/
@[simp] abbrev rstLowCycles (_c : Config) : Nat := 3

/-- `CFG_EN_CYCLES`, the constant 15 (R7, R92). -/
@[simp] abbrev cfgEnCycles (_c : Config) : Nat := 15

/-- `CFG_EN_LATCH_FROM`, the constant 2 (R7, R92). -/
@[simp] abbrev cfgEnLatchFrom (_c : Config) : Nat := 2

/-- `CFG_DATA_CYCLES`, the constant 16 (R7, R93). -/
@[simp] abbrev cfgDataCycles (_c : Config) : Nat := 16

/-- `CFG_DATA_LATCH_FROM`, the constant 5 (R7, R93). -/
@[simp] abbrev cfgDataLatchFrom (_c : Config) : Nat := 5

/-- Number of slots of one RowBuffer, `CHANNELS_PER_ROW × 16` (R24). -/
def rowSlots (c : Config) : Nat := c.channelsPerRow * c.bitsPerChannel

/-- `POS[i]` (R23). Entry `i` exists for every `i < LED_COUNT` of a well-formed configuration (R57). -/
def posAt (c : Config) (i : Nat) : Position := c.pos.getD i ⟨0, 0⟩

/-- The test configuration of 95_test_vectors.md part 2, "a test value chosen by this spec". Part 2 gives no `TICK_HZ`; 1800 is
the model's own value, after R7's "reference design: ~1.8 kHz": DESIGN CHOICE (log 28), read by nothing. -/
def test : Config where
  rowCount := 3
  channelsPerRow := 2
  ledCount := 5
  pos := [⟨0, 0⟩, ⟨0, 1⟩, ⟨1, 0⟩, ⟨1, 1⟩, ⟨2, 0⟩]
  gamma := (List.range 256).map fun v => BitVec.ofNat 16 (v * 16383 / 255)
  pwmMax := 16383#16
  tickHz := 1800
  defaultGain := 0x20#8
  configDefaultBase := 0x8401#16
  glLatchFrom := 13
  rstHighCycles := 4
  rBit := 0
  gBit := 1
  bBit := 2

end Config

end Sys2Proof
end

