-- ==== Sys2Proof/WellFormed.lean ====
section
/-! DEFINITION. Well-formedness: of a configuration (20_memory.md R57, 40_gamma_table.md R111), whose failing any clause
makes it no `Device`, and of an instruction's operands. -/

namespace Sys2Proof

namespace Config

/-- R57 (a): `ROW_COUNT ≥ 1` and `CHANNELS_PER_ROW ≥ 1`. -/
def wfGeometry (c : Config) : Bool := decide (1 ≤ c.rowCount) && decide (1 ≤ c.channelsPerRow)

/-- R57 (b): `POS` has `LED_COUNT` entries, each inside the matrix. -/
def wfPosRange (c : Config) : Bool :=
  decide (c.pos.length = c.ledCount) && c.pos.all fun p => decide (p.row < c.rowCount) && decide (p.col < c.channelsPerRow)

/-- R57 (c): `POS` is injective. -/
def wfPosInjective (c : Config) : Bool := decide c.pos.Nodup

/-- Every entry of a list is at most the next one. -/
def nonDecreasing : List Word → Bool
  | [] => true
  | [_] => true
  | a :: b :: rest => decide (a ≤ b) && nonDecreasing (b :: rest)

/-- R111 (a) to (d): 256 entries, the first 0, the last `PWM_MAX`, non-decreasing. -/
def wfGamma (c : Config) : Bool :=
  decide (c.gamma.length = 256) && decide (c.gamma[0]? = some 0#16) && decide (c.gamma[255]? = some c.pwmMax)
    && nonDecreasing c.gamma

/-- R57 (f), first part: the three colour bits are pairwise distinct places of a 16-bit word. -/
def wfColourBits (c : Config) : Bool :=
  decide (c.rBit < 16) && decide (c.gBit < 16) && decide (c.bBit < 16)
    && decide (c.rBit ≠ c.gBit) && decide (c.rBit ≠ c.bBit) && decide (c.gBit ≠ c.bBit)

/-- R57 (f), second part: the default gain, the global-latch window and the PWM-reset count. -/
def wfWindows (c : Config) : Bool :=
  decide (c.defaultGain.toNat < 64) && decide (c.glLatchFrom < 16) && decide (1 ≤ c.rstHighCycles)

/-- R57 (g): an index fits the command word. -/
def wfIndexWidth (c : Config) : Bool := decide (c.ledCount ≤ 65536)

/-- R57: the configuration a model accepts. Clause (d), `LED_COUNT ≤ ROW_COUNT × CHANNELS_PER_ROW`, follows from (b) and (c)
("Hence") and is not checked again (log 16). -/
def wf (c : Config) : Bool :=
  c.wfGeometry && c.wfPosRange && c.wfPosInjective && c.wfGamma && c.wfColourBits && c.wfWindows && c.wfIndexWidth

end Config

/-- A configuration together with the check it has passed, so that an ill-formed one is part of no state: "a model refuses a
configuration that fails any clause" (R57), before reset is released (R263). -/
structure Device extends Config where
  ok : toConfig.wf = true
  deriving DecidableEq, Repr

/-- Accept a configuration record, or refuse it (R57). -/
def Device.ofConfig (c : Config) : Option Device :=
  if h : c.wf = true then some ⟨c, h⟩ else none

/-- The device with the test configuration of 95_test_vectors.md part 2. -/
def Device.test : Device := ⟨Config.test, by decide +kernel⟩

/-- An instruction whose operands lie in the ranges the spec gives them: the row of a ROW_TRANSFER is a row of the device
(R150). Every other operand admits every value of its width. -/
def Instr.wf (c : Config) : Instr → Bool
  | .init => true
  | .flush => true
  | .setColor _ _ _ _ => true
  | .setColorAll _ _ _ => true
  | .wrcfg _ => true
  | .tick => true
  | .lookup _ => true
  | .enc _ _ _ _ => true
  | .pulse _ _ _ _ => true
  | .rowTransfer row => decide (row < c.rowCount)
  | .globalLatch => true
  | .pwmReset => true
  | .configWrite _ => true

end Sys2Proof
end

