-- ==== Sys2Proof/Machine/State.lean ====
section
/-! DEFINITION. The state of the core (10_state.md R20 to R38), why a step can stop, and the state after reset (R40, R255). -/

namespace Sys2Proof.Machine

/-- The sequencer states of `SEQ`: D0's five and the three this spec adds (R30). -/
inductive SeqState where
  | idle
  | transferRow
  | globalLatch
  | resetCounter
  | selectNextRow
  | cfgEnable
  | cfgData
  | encode
  deriving DecidableEq, Repr

/-- `SEQ`, the pair `(state, k)` (R30). -/
structure Seq where
  state : SeqState
  k : Nat
  deriving DecidableEq, Repr

/-- `(IDLE, 0)`, the position between atomic steps (R30). -/
def Seq.idle : Seq := ⟨.idle, 0⟩

/-- The serial output line latches (R31). -/
structure Lines where
  clk : Bool
  le : Bool
  dr : Bool
  dg : Bool
  db : Bool
  deriving DecidableEq, Repr

/-- The names of the output lines, the `id` of D0's `set_line(id, level)` (R147, R240). -/
inductive Line where
  | clk
  | le
  | dr
  | dg
  | db
  | rowEn (q : Nat)
  deriving DecidableEq, Repr

/-- One `set_line` call of the pin trace (R147). -/
structure PinWrite where
  line : Line
  level : Bool
  deriving DecidableEq, Repr

/-- An event of the sampled trace (R10): a shift cycle `S(r, g, b, le)` or a row event `ROW(q, v)`. -/
inductive Event where
  | shift (r g b le : Bool)
  | row (q : Nat) (v : Bool)
  deriving DecidableEq, Repr

/-- `STATUS`, the error status register (R36). -/
structure Status where
  err : Bool
  code : BitVec 4
  info : BitVec 16
  deriving DecidableEq, Repr

/-- No error since reset (R36). -/
def Status.clear : Status := ⟨false, 0, 0⟩

/-- The machine's state. Fields `conf`, `inbox` and `result` are the model's own (logs 1, 3, 7); every other field is a piece
of state of R20 or one of the two recordings of R38 and R147. -/
structure State where
  /-- The configuration record with the ROMs `GAMMA` and `POS` (R7, R22, R23); no step changes it (log 3). -/
  conf : Device
  /-- The requests not yet taken, the next one first (log 1). -/
  inbox : List Request
  /-- `FB`, the FrameBuffer, by LogicalLED index (R21). -/
  fb : Mem Color
  /-- `RB`, the RowBuffer set, by `row × (CHANNELS_PER_ROW × 16) + slot` (R24, R54, log 18). -/
  rb : Mem Word
  /-- `ROWIDX` (R26). -/
  rowIdx : Nat
  /-- `PENDING` (R27). -/
  pending : Bool
  /-- `PEND_LEFT` (R29). -/
  pendLeft : Nat
  /-- `CFG`, the ConfigRegister (R28). -/
  cfg : Word
  /-- `SEQ` (R30). -/
  seq : Seq
  /-- `CLK`, `LE`, `DR`, `DG`, `DB` (R31). -/
  lines : Lines
  /-- `ROW_EN[q]`, by row (R32). -/
  rowEn : Mem Bool
  /-- `INITED` (R33). -/
  inited : Bool
  /-- `TICK_EN` (R34). -/
  tickEn : Bool
  /-- `STATUS` (R36). -/
  status : Status
  /-- `TRACE`, the sampled trace, oldest event first (R38). -/
  trace : List Event
  /-- The pin trace, oldest call first (R147). -/
  pins : List PinWrite
  /-- The answer of the last LOOKUP or ENC that ran as a step (log 7). -/
  result : Word
  deriving DecidableEq, Repr

/-- Why a step can stop with a fault. -/
inductive Fault where
  /-- Raised by a ROW_TRANSFER whose row is not in `[0, ROW_COUNT)`: it would read RowBuffer elements that do not exist (R50,
  R52, R150). Safe: the machine stops where the spec gives no effect; TICK never raises it (R185, log 13). -/
  | rowOutOfRange (row : Nat)
  deriving DecidableEq, Repr

/-- Why a step can be refused. -/
inductive Refusal where
  /-- Raised by `exec` for an instruction with no meaning yet. Safe: it stops. -/
  | notModelled (mnemonic : String)
  deriving DecidableEq, Repr

/-- What power-on leaves in the state that the spec calls unspecified (R40, U1): "a model draws any value of the type". -/
structure PowerOn where
  fb : Nat → Color
  rb : Nat → Word
  rowIdx : Nat
  cfg : Word
  lines : Lines
  rowEn : Nat → Bool

/-- The draw of `State.reset`: zero everywhere. DESIGN CHOICE (log 5), unsafe. -/
def PowerOn.zero : PowerOn where
  fb := fun _ => Color.black
  rb := fun _ => 0
  rowIdx := 0
  cfg := 0
  lines := ⟨false, false, false, false, false⟩
  rowEn := fun _ => false

/-- The state after power-on reset (R40, R255) of a core with configuration `d`, for the draw `u` of what is unspecified;
`ROWIDX` lies in `[0, ROW_COUNT)` whatever is drawn (R26). -/
def State.resetWith (d : Device) (u : PowerOn) : State where
  conf := d
  inbox := []
  fb := Mem.ofFn Color.black d.ledCount u.fb
  rb := Mem.ofFn 0 (d.rowCount * d.rowSlots) u.rb
  rowIdx := u.rowIdx % d.rowCount
  pending := false
  pendLeft := 0
  cfg := u.cfg
  seq := Seq.idle
  lines := u.lines
  rowEn := Mem.ofFn false d.rowCount u.rowEn
  inited := false
  tickEn := false
  status := Status.clear
  trace := []
  pins := []
  result := 0

/-- The machine right after reset: "the reset state of 10_state.md rule R40 with the configuration of part 2"
(95_test_vectors.md part 4), and the zero draw. DESIGN CHOICE (logs 4 and 5), unsafe: statements are made about
`State.resetWith`. -/
def State.reset : State := State.resetWith Device.test PowerOn.zero

end Sys2Proof.Machine
end

