-- ==== Sys2Proof/Machine/Flags.lean ====
section
/-! DEFINITION. The flags: `PENDING` with its counter `PEND_LEFT` (R27, R29, R181), and the error codes of `STATUS` (R216). -/

namespace Sys2Proof.Machine

/-- The error conditions (R216). -/
inductive ErrorCode where
  | invalidIndex
  | notInitialized
  | alreadyInitialized
  | illegalCommand
  deriving DecidableEq, Repr

/-- `CODE` of an error (R216). -/
def ErrorCode.code : ErrorCode → BitVec 4
  | .invalidIndex => 1
  | .notInitialized => 2
  | .alreadyInitialized => 3
  | .illegalCommand => 4

/-- The last two actions of FLUSH: `PEND_LEFT <- ROW_COUNT`, `PENDING <- 1` (R131). -/
def markPending (s : State) : State := { s with pendLeft := s.conf.rowCount, pending := true }

/-- INIT's values of the two: `PENDING <- 0`, `PEND_LEFT <- 0` (R201). -/
def clearPending (s : State) : State := { s with pending := false, pendLeft := 0 }

/-- TICK's update (R177): with the captured `pend = 1`, decrement `PEND_LEFT` and clear `PENDING` when it reaches 0. `PEND_LEFT`
is at least 1 whenever `PENDING = 1` (R39 (e), R13 (d)); outside that invariant the natural-number subtraction stays at 0
(log 25). -/
def countTransferredRow (pend : Bool) (s : State) : State :=
  if pend then
    { s with pendLeft := s.pendLeft - 1, pending := if s.pendLeft - 1 = 0 then false else s.pending }
  else s

/-- The 21-bit status port `{ERR, CODE[3:0], INFO[15:0]}` (R36, R240). -/
def State.statusPort (s : State) : BitVec 21 :=
  (BitVec.ofBool s.status.err).setWidth 21 <<< 20 ||| s.status.code.setWidth 21 <<< 16 ||| s.status.info.setWidth 21

end Sys2Proof.Machine
end

