-- ==== Sys2Proof/Machine/Operands.lean ====
section
/-! DEFINITION. Operand forms: how the addresses, bit selections and register values of the operations are formed (R13). -/

namespace Sys2Proof.Machine

/-- One shift cycle: the levels of the three data lines and of the latch (R88). -/
structure Cycle where
  r : Bool
  g : Bool
  b : Bool
  le : Bool
  deriving DecidableEq, Repr

/-- A cycle with the data lines at 0, as in every burst that carries no data (R90, R91, R92). -/
def Cycle.blank (le : Bool) : Cycle := ⟨false, false, false, le⟩

/-- The event a cycle puts on the sampled trace (R10, R88). -/
def Cycle.event (c : Cycle) : Event := .shift c.r c.g c.b c.le

/-- The slot of column `col` and plane `p`, `col × 16 + p` (R54, R13 (b)). -/
def slotOf (c : Config) (col p : Nat) : Nat := col * c.bitsPerChannel + p

/-- The index in the space `RB` of slot `slot` of row `row`. DESIGN CHOICE (log 18): the pair `(r, s)` of R50 as one number. -/
def rbAddr (c : Config) (row slot : Nat) : Nat := row * c.rowSlots + slot

/-- Plane `p` of a 16-bit value, its bit `15 − p` (R8, R13 (f)). -/
def plane (v : Word) (p : Nat) : Bool := v.getLsbD (15 - p)

/-- `bit << place`, a colour bit at its place in a packed word (R13 (f), R130). -/
def placeBit (bit : Bool) (place : Nat) : Word := (BitVec.ofBool bit).setWidth 16 <<< place

/-- The index check of SET_COLOR, an unsigned comparison of the whole 16-bit field (R13 (a), R82). -/
def indexValid (c : Config) (index : BitVec 16) : Bool := decide (index.toNat < c.ledCount)

/-- The ConfigRegister's value, `((gain & 0b111111) << 4) | CONFIG_DEFAULT_BASE` (R87, R13 (e)). -/
def configValue (base : Word) (gain : BitVec 8) : Word :=
  ((gain &&& 0b111111#8).setWidth 16 <<< 4) ||| base

/-- `(row + 1) mod ROW_COUNT` (R13 (c), R182). -/
def nextRow (c : Config) (row : Nat) : Nat := (row + 1) % c.rowCount

/-- `GAMMA[v]`, the ROM's entry (R22, R53). The ROM of a `Device` has all 256 entries, so the `getD` is never out of range. -/
def gammaAt (c : Config) (v : Intensity) : Word := c.gamma.getD v.toNat 0

end Sys2Proof.Machine
end

