-- ==== Sys2Proof/Machine/Ops.lean ====
section
/-! DEFINITION. The named operations over memory, lines and registers that the meanings share; among them `raise` (R217), the
one way an error is taken, and the entry to and return from a tick (R226, R227). -/

namespace Sys2Proof.Machine

/-! ## Memory spaces (R50, R52) -/

/-- `FB[i]` (R50). -/
def readFb (s : State) (i : Nat) : Color := Mem.read Color.black s.fb i

/-- `FB[i] <- v` (R50). -/
def writeFb (i : Nat) (v : Color) (s : State) : State := { s with fb := Mem.write Color.black s.fb i v }

/-- `RB[row][slot]` (R50, R54). -/
def readRb (s : State) (row slot : Nat) : Word := Mem.read 0 s.rb (rbAddr s.conf.toConfig row slot)

/-- `RB[row][slot] <- v` (R50, R54). -/
def writeRb (row slot : Nat) (v : Word) (s : State) : State :=
  { s with rb := Mem.write 0 s.rb (rbAddr s.conf.toConfig row slot) v }

/-- Every element of `RB` at the all-off pattern `0x0000` (R137). -/
def clearRb (s : State) : State := { s with rb := [] }

/-! ## Lines (R31, R32, R147) -/

/-- The level a line latch holds. -/
def lineLevel (s : State) : Line → Bool
  | .clk => s.lines.clk
  | .le => s.lines.le
  | .dr => s.lines.dr
  | .dg => s.lines.dg
  | .db => s.lines.db
  | .rowEn q => Mem.read false s.rowEn q

/-- `set_line(id, level)` (R147): drive a line latch and record the call on the pin trace. -/
def setLine (l : Line) (v : Bool) (s : State) : State :=
  let s := { s with pins := s.pins ++ [PinWrite.mk l v] }
  match l with
  | .clk => { s with lines := { s.lines with clk := v } }
  | .le => { s with lines := { s.lines with le := v } }
  | .dr => { s with lines := { s.lines with dr := v } }
  | .dg => { s with lines := { s.lines with dg := v } }
  | .db => { s with lines := { s.lines with db := v } }
  | .rowEn q => { s with rowEn := Mem.write false s.rowEn q v }

/-- `emit e` (R9): append an event to `TRACE`. -/
def emit (e : Event) (s : State) : State := { s with trace := s.trace ++ [e] }

/-- `ROW_EN[q]` (R32). -/
def rowEnabled (s : State) (q : Nat) : Bool := lineLevel s (.rowEn q)

/-- `ROW_EN[q] <- v; emit ROW(q, v)` (R177, R201). -/
def setRow (q : Nat) (v : Bool) (s : State) : State := emit (.row q v) (setLine (.rowEn q) v s)

/-- Every row line to its disabling level, in ascending index order (R179). -/
def allRowsOff (s : State) : State := (List.range s.conf.rowCount).foldl (fun s q => setRow q false s) s

/-- The serial lines to their idle levels, in INIT's order (R201). -/
def idleLines (s : State) : State :=
  setLine .db false (setLine .dg false (setLine .dr false (setLine .le false (setLine .clk false s))))

/-! ## Sequencer and bursts (R30, R146, R148) -/

/-- `SEQ <- (state, 0)` (R30). -/
def enterState (st : SeqState) (s : State) : State := { s with seq := ⟨st, 0⟩ }

/-- PULSE, the cycle primitive (R146): data, latch, rising clock edge, the `S` event, falling edge, next cycle. The event is
emitted also if `CLK` was already 1, which R146's precondition excludes: DESIGN CHOICE (log 10). -/
def pulse (r g b le : Bool) (s : State) : State :=
  let s := setLine .dr r s
  let s := setLine .dg g s
  let s := setLine .db b s
  let s := setLine .le le s
  let s := setLine .clk true s
  let s := emit (.shift r g b le) s
  let s := setLine .clk false s
  { s with seq := { s.seq with k := s.seq.k + 1 } }

/-- The burst epilogue `LE <- 0` (R148); the cycle counter is cleared at the end of the burst (R13 (g); DEDUCED, log 11). -/
def endBurst (s : State) : State :=
  let s := setLine .le false s
  { s with seq := { s.seq with k := 0 } }

/-- A burst (R88, R148): enter the sequencer state, pulse every cycle in time order, then the epilogue. -/
def burst (st : SeqState) (cycles : List Cycle) (s : State) : State :=
  endBurst (cycles.foldl (fun s c => pulse c.r c.g c.b c.le s) (enterState st s))

/-! ## Errors and the tick interrupt -/

/-- `raise E(info)` (R217): `STATUS.ERR <- 1`, `STATUS.CODE`, `STATUS.INFO`, and nothing else. The command ends here with no
other effect and the core goes on with the next one. -/
def raise (e : ErrorCode) (info : BitVec 16) (s : State) : State := { s with status := ⟨true, e.code, info⟩ }

/-- Admission of a tick request (R175): `TICK_EN = 1` and the core is idle, `SEQ = (IDLE, 0)` (DEDUCED, log 12). -/
def tickAdmitted (s : State) : Bool := s.tickEn && decide (s.seq = Seq.idle)

/-- Tick entry, the transition `IDLE → TRANSFER_ROW`; nothing is saved and no mode changes (R226). -/
def tickEntry (s : State) : State := enterState .transferRow s

/-- Return to idle: the end of a tick (R227) and of every command that moved the sequencer (R30); it restores nothing. -/
def returnToIdle (s : State) : State := { s with seq := Seq.idle }

/-! ## Requests -/

/-- Take the next request (R60, R228), if there is one. -/
def takeRequest (s : State) : Option (Request × State) :=
  match s.inbox with
  | [] => none
  | r :: rest => some (r, { s with inbox := rest })

/-- What the command decoder does with a request it rejects: `ILLEGAL_COMMAND` with `INFO = W[47:32]` (R83, R222). Only command
words can be rejected. -/
def rejectRequest (r : Request) (s : State) : State :=
  match r with
  | .command w => raise .illegalCommand (CommandWord.illegalInfo w) s
  | .tick => s
  | .rom _ => s
  | .encoder _ => s
  | .pulse _ => s
  | .rowTransfer _ => s
  | .globalLatch => s
  | .pwmReset => s
  | .configWrite _ => s

/-- Put a request where `takeRequest` finds it next. -/
def putRequest (r : Request) (s : State) : State := { s with inbox := r :: s.inbox }

end Sys2Proof.Machine
end

