-- ==== Sys2Proof/Machine/Serial.lean ====
section
/-! DEFINITION. SerialProtocolEngine: PULSE, ROW_TRANSFER, GLOBAL_LATCH, PWM_RESET, CONFIG_WRITE (43_serial_protocol.md), with
the wire formats of 30_encoding.md R88 to R93. -/

namespace Sys2Proof.Machine

/-- PULSE (R146). -/
def execPulse (r g b le : Bool) (s : State) : Host.Outcome State Fault Refusal := .next (pulse r g b le s)

/-- One cycle of a row transfer (R150): the three colour bits of `RB[row][col × 16 + p]`, and the latch in the last cycle in
time, column 0 and plane 15 (R152). -/
def rowCycle (s : State) (row col p : Nat) : Cycle :=
  let w := readRb s row (slotOf s.conf.toConfig col p)
  ⟨w.getLsbD s.conf.rBit, w.getLsbD s.conf.gBit, w.getLsbD s.conf.bBit, decide (col = 0 ∧ p + 1 = s.conf.bitsPerChannel)⟩

/-- The cycles of a row transfer (R89, R150): columns from the highest down to 0, planes from 0 up to 15. -/
def rowCycles (s : State) (row : Nat) : List Cycle :=
  (List.range s.conf.channelsPerRow).reverse.flatMap fun col =>
    (List.range s.conf.bitsPerChannel).map fun p => rowCycle s row col p

/-- ROW_TRANSFER on a row of the device (R150). No cycle writes `RB`, so its words are read before the first one. -/
def transferRow (row : Nat) (s : State) : State := burst .transferRow (rowCycles s row) s

/-- ROW_TRANSFER (R150). A row outside `[0, ROW_COUNT)` is no operand of it: a fault (log 13). -/
def execRowTransfer (row : Nat) (s : State) : Host.Outcome State Fault Refusal :=
  if row < s.conf.rowCount then .next (transferRow row s) else .fault (.rowOutOfRange row)

/-- The cycles of a burst without data: `n` of them, the latch raised from index `first` on. -/
def blankCycles (n first : Nat) : List Cycle := (List.range n).map fun k => Cycle.blank (decide (first ≤ k))

/-- The global latch (R90, R155). -/
def globalLatch (s : State) : State := burst .globalLatch (blankCycles s.conf.glCycles s.conf.glLatchFrom) s

/-- GLOBAL_LATCH (R155). -/
def execGlobalLatch (s : State) : Host.Outcome State Fault Refusal := .next (globalLatch s)

/-- The PWM-counter reset (R91, R157). -/
def pwmReset (s : State) : State :=
  burst .resetCounter (blankCycles (s.conf.rstLowCycles + s.conf.rstHighCycles) s.conf.rstLowCycles) s

/-- PWM_RESET (R157). -/
def execPwmReset (s : State) : Host.Outcome State Fault Refusal := .next (pwmReset s)

/-- The cycles of the configuration data burst (R93, R160): `CFG`, most significant bit first, on all three data lines. -/
def configDataCycles (c : Config) (v : Word) : List Cycle :=
  (List.range c.cfgDataCycles).map fun k =>
    ⟨plane v k, plane v k, plane v k, decide (c.cfgDataLatchFrom ≤ k)⟩

/-- The configuration-register write (R160): `CFG`, the enable burst (R92), the data burst (R93). -/
def configWrite (gain : BitVec 8) (s : State) : State :=
  let s := { s with cfg := configValue s.conf.configDefaultBase gain }
  let s := burst .cfgEnable (blankCycles s.conf.cfgEnCycles s.conf.cfgEnLatchFrom) s
  burst .cfgData (configDataCycles s.conf.toConfig s.cfg) s

/-- CONFIG_WRITE (R160). -/
def execConfigWrite (gain : BitVec 8) (s : State) : Host.Outcome State Fault Refusal := .next (configWrite gain s)

end Sys2Proof.Machine
end

