-- ==== Sys2Proof/Machine/Contract.lean ====
section
/-! DEFINITION. Driver contract: INIT and WRCFG (45_driver_contract.md). -/

namespace Sys2Proof.Machine

/-- The effect of a first INIT, in the order of R201. -/
def startUp (s : State) : State :=
  let s := idleLines s
  let s := allRowsOff s
  let s := clearRb s
  let s := { s with rowIdx := 0 }
  let s := clearPending s
  let s := configWrite s.conf.defaultGain s
  let s := returnToIdle s
  { s with inited := true, tickEn := true }

/-- INIT (R201). The timer it configures is not state of the core (R236, log 19). -/
def execInit (s : State) : Host.Outcome State Fault Refusal :=
  if s.inited then .next (raise .alreadyInitialized 0 s) else .next (startUp s)

/-- WRCFG (R205): a configuration write as one atomic step, after which the sequencer is idle again (R30). -/
def execWrcfg (gain8 : BitVec 8) (s : State) : Host.Outcome State Fault Refusal :=
  if s.inited = false then .next (raise .notInitialized 0 s)
  else .next (returnToIdle (configWrite gain8 s))

end Sys2Proof.Machine
end

