-- ==== Sys2Proof/Machine/Encoder.lean ====
section
/-! DEFINITION. Encoder: ENC and FLUSH (42_encoder.md). -/

namespace Sys2Proof.Machine

/-- `ENC(R, G, B, p)` (R130): plane `p` of the three GammaValues, each at its place in the packed word (R86). -/
def encWord (c : Config) (v : Color) (p : Nat) : Word :=
  placeBit (plane (gammaAt c v.r) p) c.rBit ||| placeBit (plane (gammaAt c v.g) p) c.gBit
    ||| placeBit (plane (gammaAt c v.b) p) c.bBit

/-- ENC (R130), combinational; run as a step of its own, its answer goes to the model's `result` (DESIGN CHOICE, log 7). -/
def execEnc (r g b : Intensity) (p : BitVec 4) (s : State) : Host.Outcome State Fault Refusal :=
  .next { s with result := encWord s.conf.toConfig ⟨r, g, b⟩ p.toNat }

/-- The inner loop of FLUSH (R131): the 16 slots of LogicalLED `i`, plane 0 first. -/
def encodeLed (i : Nat) (s : State) : State :=
  let pos := s.conf.posAt i
  let color := readFb s i
  (List.range s.conf.bitsPerChannel).foldl
    (fun s p => writeRb pos.row (slotOf s.conf.toConfig pos.col p) (encWord s.conf.toConfig color p) s) s

/-- The outer loop of FLUSH (R131), over every LogicalLED; the order is unobservable (R132). -/
def encodeFrame (s : State) : State := (List.range s.conf.ledCount).foldl (fun s i => encodeLed i s) s

/-- FLUSH (R131): every RowBuffer rewritten, then `PEND_LEFT` and `PENDING`. The sequencer passes through `ENCODE` (R30). -/
def execFlush (s : State) : Host.Outcome State Fault Refusal :=
  if s.inited = false then .next (raise .notInitialized 0 s)
  else .next (returnToIdle (markPending (encodeFrame (clearRb (enterState .encode s)))))

end Sys2Proof.Machine
end

