-- ==== Sys2Proof/Machine/FrameBuffer.lean ====
section
/-! DEFINITION. FrameBuffer: SET_COLOR and SET_COLOR_ALL (41_framebuffer.md). -/

namespace Sys2Proof.Machine

/-- SET_COLOR (R121): initialisation check, operand check (R223), one element of `FB`. -/
def execSetColor (index : BitVec 16) (r g b : Intensity) (s : State) : Host.Outcome State Fault Refusal :=
  if s.inited = false then .next (raise .notInitialized 0 s)
  else if indexValid s.conf.toConfig index = false then .next (raise .invalidIndex index s)
  else .next (writeFb index.toNat ⟨r, g, b⟩ s)

/-- `for i in 0 .. LED_COUNT - 1: FB[i] <- v` (R123). -/
def fillFb (v : Color) (s : State) : State := (List.range s.conf.ledCount).foldl (fun s i => writeFb i v s) s

/-- SET_COLOR_ALL (R123). -/
def execSetColorAll (r g b : Intensity) (s : State) : Host.Outcome State Fault Refusal :=
  if s.inited = false then .next (raise .notInitialized 0 s)
  else .next (fillFb ⟨r, g, b⟩ s)

end Sys2Proof.Machine
end

