-- ==== Sys2Proof/Machine/Gamma.lean ====
section
/-! DEFINITION. GammaTable: LOOKUP (40_gamma_table.md). -/

namespace Sys2Proof.Machine

/-- LOOKUP (R110): the combinational read `GAMMA[v]`. It reads and writes no state of the core; run as a step of its own, its
answer goes to the model's `result` (DESIGN CHOICE, log 7). -/
def execLookup (v : Intensity) (s : State) : Host.Outcome State Fault Refusal :=
  .next { s with result := gammaAt s.conf.toConfig v }

end Sys2Proof.Machine
end

