-- ==== Sys2Proof/Machine/Scheduler.lean ====
section
/-! DEFINITION. RowScanner / RefreshScheduler: TICK (44_scheduler.md). -/

namespace Sys2Proof.Machine

/-- The state `SELECT_NEXT_ROW` of a tick (R176, R177): enable the row just transferred and only it, advance `ROWIDX`, count
the row against the pending frame. -/
def selectNextRow (row : Nat) (pend : Bool) (s : State) : State :=
  let s := enterState .selectNextRow s
  let s := setRow row true s
  let s := { s with rowIdx := nextRow s.conf.toConfig row }
  countTransferredRow pend s

/-- An admitted tick (R177): `ROWIDX` and `PENDING` are captured once, then the four states in D0's order, then `IDLE`. -/
def refresh (s : State) : State :=
  let row := s.rowIdx
  let pend := s.pending
  let s := tickEntry s
  let s := allRowsOff s
  let s := transferRow row s
  let s := globalLatch s
  let s := pwmReset s
  let s := selectNextRow row pend s
  returnToIdle s

/-- TICK (R177): a request that is not admitted changes nothing (R175, R184). -/
def execTick (s : State) : Host.Outcome State Fault Refusal :=
  if tickAdmitted s then .next (refresh s) else .next s

end Sys2Proof.Machine
end

