-- ==== Sys2Proof/Machine/Dispatch.lean ====
section
/-! DEFINITION. One arm per operation of spec/opcode_table.json. -/

namespace Sys2Proof.Machine

def exec (i : Instr) (s : State) : Host.Outcome State Fault Refusal :=
  match i with
  | .init => Sys2Proof.Machine.execInit s
  | .flush => Sys2Proof.Machine.execFlush s
  | .setColor index r g b => Sys2Proof.Machine.execSetColor index r g b s
  | .setColorAll r g b => Sys2Proof.Machine.execSetColorAll r g b s
  | .wrcfg gain8 => Sys2Proof.Machine.execWrcfg gain8 s
  | .tick => Sys2Proof.Machine.execTick s
  | .lookup v => Sys2Proof.Machine.execLookup v s
  | .enc r g b p => Sys2Proof.Machine.execEnc r g b p s
  | .pulse r g b le => Sys2Proof.Machine.execPulse r g b le s
  | .rowTransfer row => Sys2Proof.Machine.execRowTransfer row s
  | .globalLatch => Sys2Proof.Machine.execGlobalLatch s
  | .pwmReset => Sys2Proof.Machine.execPwmReset s
  | .configWrite gain => Sys2Proof.Machine.execConfigWrite gain s

end Sys2Proof.Machine
end

