-- ==== Sys2Proof/Machine/Step.lean ====
section
/-! DEFINITION. One atomic step of the core (20_memory.md R60): take the next request, decode it, run it. -/

namespace Sys2Proof.Machine

/-- One atomic step. With no request the core is idle and "executes nothing of its own accord" (R256): the state is unchanged.
A command word that decodes to nothing raises `ILLEGAL_COMMAND` (R222). -/
def step (s : State) : Host.Outcome State Fault Refusal :=
  match takeRequest s with
  | none => .next s
  | some (r, s') =>
    match decode r with
    | .ok i => exec i s'
    | .error _ => .next (rejectRequest r s')

/-- Put the opcode table's word where `step` takes its next request (logs 2 and 9); a word that stands for no request is
not put. -/
def State.withFetchWord (s : State) (nbits w : Nat) : State :=
  match requestOfTableWord nbits w with
  | none => s
  | some r => putRequest r s

end Sys2Proof.Machine
end

