-- ==== Sys2Proof/Safety.lean ====
section
/-! DEFINITION. What a safe run is: the invariants of R39 in the terms the statements use, and how the two traces relate (R147). -/

namespace Sys2Proof.Safety

open Sys2Proof.Machine

/-- Every memory is in its canonical form and lists only elements that exist (R50). -/
structure MemoryOk (s : State) : Prop where
  fbWf : Mem.wf Color.black s.fb = true
  fbRange : Mem.inRange s.conf.ledCount s.fb = true
  rbWf : Mem.wf 0 s.rb = true
  rbRange : Mem.inRange (s.conf.rowCount * s.conf.rowSlots) s.rb = true
  rowEnWf : Mem.wf false s.rowEn = true
  rowEnRange : Mem.inRange s.conf.rowCount s.rowEn = true

/-- Only the three colour bits of a packed word are 1 (R39 (g), R86). -/
def onlyColourBits (c : Config) (w : Word) : Prop :=
  ∀ j, j ≠ c.rBit → j ≠ c.gBit → j ≠ c.bBit → w.getLsbD j = false

/-- What holds between atomic steps before and after INIT: R39 (a), (d), (e), `TICK_EN` set by INIT only (R34), and no row event
that enables a row before INIT (R256). -/
structure AlwaysInv (s : State) : Prop where
  seqIdle : s.seq = Seq.idle
  rowIdxInRange : s.rowIdx < s.conf.rowCount
  pendingIff : s.pending = true ↔ s.pendLeft ≠ 0
  pendLeftInRange : s.pendLeft ≤ s.conf.rowCount
  tickEnIff : s.tickEn = s.inited
  quietBeforeInit : s.inited = false → s.trace = [] ∧ s.pins = []

/-- What holds between atomic steps once `INITED = 1`: R39 (b), (c), (g), and (h) for some gain. In (c), "no tick has run since
INIT" is said on `TRACE`: no row event has enabled a row. -/
structure InitedInv (s : State) : Prop where
  clkLow : s.lines.clk = false
  leLow : s.lines.le = false
  enabledRow : ∀ q, rowEnabled s q = true → q = (s.rowIdx + s.conf.rowCount - 1) % s.conf.rowCount
  noneEnabledIff : (∀ q, rowEnabled s q = false) ↔ ∀ q, Event.row q true ∉ s.trace
  colourBits : ∀ row slot, row < s.conf.rowCount → slot < s.conf.rowSlots →
    onlyColourBits s.conf.toConfig (readRb s row slot)
  cfgForm : ∃ gain : BitVec 8, s.cfg = configValue s.conf.configDefaultBase gain

/-- R39 (a) to (e), (g), and (h) for some gain, for a core that only the outside world drives (host commands and ticks, R206). R39
(f), and in (h) which gain, are about the past of a run and are no clause. -/
structure CoreInv (s : State) : Prop where
  external : ∀ r ∈ s.inbox, r.external = true
  memory : MemoryOk s
  always : AlwaysInv s
  inited : s.inited = true → InitedInv s

/-- No error since reset: the premise and conclusion of a claim about a well-behaved host (R218). -/
def ErrorFree (s : State) : Prop := s.status.err = false

/-- What the chain samples from a pin trace (R147): the levels of `DR`, `DG`, `DB`, `LE` at each call that raises `CLK`, and each
call on a row line; `l` holds the levels driven before. -/
def sampleFrom : Lines → List PinWrite → List Event
  | _, [] => []
  | l, ⟨.dr, v⟩ :: rest => sampleFrom { l with dr := v } rest
  | l, ⟨.dg, v⟩ :: rest => sampleFrom { l with dg := v } rest
  | l, ⟨.db, v⟩ :: rest => sampleFrom { l with db := v } rest
  | l, ⟨.le, v⟩ :: rest => sampleFrom { l with le := v } rest
  | l, ⟨.clk, true⟩ :: rest => .shift l.dr l.dg l.db l.le :: sampleFrom l rest
  | l, ⟨.clk, false⟩ :: rest => sampleFrom l rest
  | l, ⟨.rowEn q, v⟩ :: rest => .row q v :: sampleFrom l rest

/-- "The sampled trace is the pin trace with each PULSE collapsed to its `S` event and each epilogue dropped" (R147), whatever
the levels before the first call. -/
def TracesAgree (s : State) : Prop := ∀ l : Lines, sampleFrom l s.pins = s.trace

/-- The `set_line` calls of one event (R147): the six of a PULSE, "in the order written", or the one of a row event. -/
def eventCalls : Event → List PinWrite
  | .shift r g b le => [⟨.dr, r⟩, ⟨.dg, g⟩, ⟨.db, b⟩, ⟨.le, le⟩, ⟨.clk, true⟩, ⟨.clk, false⟩]
  | .row q v => [⟨.rowEn q, v⟩]

/-- The calls of a burst: its cycles', then the epilogue's one call `set_line(LE, 0)` (R147, R148). -/
def burstCalls (cycles : List Event) : List PinWrite := cycles.flatMap eventCalls ++ [⟨.le, false⟩]

/-- The wire format of a row transfer (R89) by cycle index: cycle `k` carries column `CHANNELS_PER_ROW − 1 − (k >> 4)`, plane
`k & 15` (R30), and the last cycle the latch. -/
def wireRow (s : State) (row : Nat) : List Event :=
  (List.range (s.conf.channelsPerRow * 16)).map fun k =>
    let w := readRb s row ((s.conf.channelsPerRow - 1 - k / 16) * 16 + k % 16)
    .shift (w.getLsbD s.conf.rBit) (w.getLsbD s.conf.gBit) (w.getLsbD s.conf.bBit)
      (decide (k + 1 = s.conf.channelsPerRow * 16))

/-- The wire format of a burst without data: `n` cycles, the latch raised from cycle `first` on (R90, R91, R92). -/
def wireBlank (n first : Nat) : List Event := (List.range n).map fun k => .shift false false false (decide (first ≤ k))

/-- The wire format of the configuration data burst of the register value `v` (R93). -/
def wireConfigData (v : Word) : List Event :=
  (List.range 16).map fun k => .shift (v.getLsbD (15 - k)) (v.getLsbD (15 - k)) (v.getLsbD (15 - k)) (decide (5 ≤ k))

/-- The shape of a burst (R94): `n` shift cycles, of which exactly the last `m` have the latch raised. -/
def EndsInLatchRun (n m : Nat) (es : List Event) : Prop :=
  es.length = n ∧ m ≤ n ∧ ∀ k < n, ∃ r g b, es[k]? = some (.shift r g b (decide (n - m ≤ k)))

/-- The events that drive every row line off, in ascending index order (R179). -/
def rowsOffEvents (c : Config) : List Event := (List.range c.rowCount).map fun q => .row q false

/-- The calls of the same: "a `ROW(q, v)` event is one call `set_line(ROW_EN[q], v)`" (R147). -/
def rowsOffCalls (c : Config) : List PinWrite := (List.range c.rowCount).map fun q => ⟨.rowEn q, false⟩

/-- The events a tick would add to the trace. -/
def tickEvents (s : State) : List Event :=
  match exec .tick s with
  | .next t => t.trace.drop s.trace.length
  | .fault _ => []
  | .refused _ => []

/-- The state with the given requests waiting, the first one next. -/
def load (requests : List Request) (s : State) : State := { s with inbox := requests }

/-- A request is a tick. -/
def isTick : Request → Bool
  | .tick => true
  | .command _ => false
  | .rom _ => false
  | .encoder _ => false
  | .pulse _ => false
  | .rowTransfer _ => false
  | .globalLatch => false
  | .pwmReset => false
  | .configWrite _ => false

/-- A request is a FLUSH. -/
def isFlush (r : Request) : Bool := decide (decode r = .ok .flush)

end Sys2Proof.Safety
end

