-- ==== Sys2Proof/Certificates/Slice0/Obligations.lean ====
section
/-! DEFINITION. The statements for the provers, in the order of the spec's files: encodings, configuration, components,
scheduler, driver contract, reset, whole machine. -/

open Sys2Proof Sys2Proof.Machine Sys2Proof.Safety

/-! ## Encodings (30_encoding.md) -/

/-- A few words of the opcode table, written out from R80 and R81 (95_test_vectors.md V11), decode to the operations they stand
for. Which request the EVENT and WIRE rows' words stand for is the model's choice (log 9). -/
def Obligations.TableWordsDecode : Prop :=
  decodeTableWord 48 0x010000000000 = some .init ∧
  decodeTableWord 48 0x020000000000 = some .flush ∧
  decodeTableWord 48 0x03000301FF10 = some (.setColor 3 1 255 16) ∧
  decodeTableWord 48 0x040000FF8000 = some (.setColorAll 255 128 0) ∧
  decodeTableWord 48 0x050000000003 = some (.wrcfg 3) ∧
  decodeTableWord 48 0x060000000000 = none ∧
  decodeTableWord 48 0x020000000001 = none ∧
  decodeTableWord 1 1 = some .tick ∧
  decodeTableWord 16 0 = some .globalLatch

/-- R81: "A word `W` selects a row when `W & mask = match`": each of the five rows, with its operands from the fields of R80. No
word selects two rows, since it decodes to one operation. -/
def Obligations.WordSelectingARowDecodesToIt : Prop :=
  ∀ w : CommandWord,
    (w &&& 0xFFFFFFFFFFFF#48 = 0x010000000000#48 → decode (.command w) = .ok .init) ∧
    (w &&& 0xFFFFFFFFFFFF#48 = 0x020000000000#48 → decode (.command w) = .ok .flush) ∧
    (w &&& 0xFF0000000000#48 = 0x030000000000#48 → decode (.command w) =
      .ok (.setColor (w.extractLsb' 24 16) (w.extractLsb' 16 8) (w.extractLsb' 8 8) (w.extractLsb' 0 8))) ∧
    (w &&& 0xFFFFFF000000#48 = 0x040000000000#48 → decode (.command w) =
      .ok (.setColorAll (w.extractLsb' 16 8) (w.extractLsb' 8 8) (w.extractLsb' 0 8))) ∧
    (w &&& 0xFFFFFFFFFF00#48 = 0x050000000000#48 → decode (.command w) = .ok (.wrcfg (w.extractLsb' 0 8)))

/-- R83, R222: a word that selects no row raises ILLEGAL_COMMAND (code 4) with `INFO = W[47:32]`, whatever `INITED` is, and has no
other effect. (The request it arrived as is taken.) -/
def Obligations.IllegalWordRaisesIllegalCommand : Prop :=
  ∀ (s : State) (w : CommandWord) (rest : List Request),
    s.inbox = .command w :: rest →
    w &&& 0xFFFFFFFFFFFF#48 ≠ 0x010000000000#48 →
    w &&& 0xFFFFFFFFFFFF#48 ≠ 0x020000000000#48 →
    w &&& 0xFF0000000000#48 ≠ 0x030000000000#48 →
    w &&& 0xFFFFFF000000#48 ≠ 0x040000000000#48 →
    w &&& 0xFFFFFFFFFF00#48 ≠ 0x050000000000#48 →
    step s = .next { s with inbox := rest, status := ⟨true, 4, w.extractLsb' 32 16⟩ }

/-- Decoding an encoded operation gives it back, with every operand at every value (R80, R81, and the model's own requests for
the operations that have no command word, log 8). -/
def Obligations.DecodeOfEncodeIsTheInstruction : Prop := ∀ i : Instr, decode (encode i) = .ok i

/-- Each request that decodes is the encoding of what it decodes to: no bit of it is ignored. -/
def Obligations.EncodeOfDecodedIsTheRequest : Prop := ∀ (r : Request) (i : Instr), decode r = .ok i → encode i = r

/-! ## Steps (20_memory.md R60) -/

/-- When the next request decodes to an operation, a step takes the request and runs that operation. The request stream is the
model's own (log 1). -/
def Obligations.StepRunsTheDecodedInstruction : Prop :=
  ∀ (s : State) (r : Request) (rest : List Request) (i : Instr),
    s.inbox = r :: rest → decode r = .ok i → step s = exec i { s with inbox := rest }

/-- With no request waiting the core does nothing of its own accord (R256, said of every state; the stream is the model's, log 1). -/
def Obligations.StepWithoutRequestChangesNothing : Prop := ∀ s : State, s.inbox = [] → step s = .next s

/-! ## Configuration (20_memory.md R57, 40_gamma_table.md R111) -/

/-- R57 and R111: the model accepts exactly the configurations that meet every clause, (a) to (g) of R57 with (a) to (d) of R111,
and refuses every other. -/
def Obligations.ConfigurationAcceptedExactlyIfWellFormed : Prop :=
  ∀ c : Config, (Device.ofConfig c).isSome = true ↔
    (1 ≤ c.rowCount ∧ 1 ≤ c.channelsPerRow) ∧
    (c.pos.length = c.ledCount ∧
      ∀ i < c.ledCount, (c.posAt i).row < c.rowCount ∧ (c.posAt i).col < c.channelsPerRow) ∧
    (∀ i < c.ledCount, ∀ j < c.ledCount, c.posAt i = c.posAt j → i = j) ∧
    c.ledCount ≤ c.rowCount * c.channelsPerRow ∧
    (c.gamma.length = 256 ∧ c.gamma[0]? = some 0 ∧ c.gamma[255]? = some c.pwmMax ∧
      ∀ (a b : Nat) (x y : Word), a ≤ b → c.gamma[a]? = some x → c.gamma[b]? = some y → x ≤ y) ∧
    (c.rBit < 16 ∧ c.gBit < 16 ∧ c.bBit < 16 ∧ c.rBit ≠ c.gBit ∧ c.rBit ≠ c.bBit ∧ c.gBit ≠ c.bBit) ∧
    (c.defaultGain.toNat < 64 ∧ c.glLatchFrom < 16 ∧ 1 ≤ c.rstHighCycles) ∧
    c.ledCount ≤ 65536

/-! ## GammaTable (40_gamma_table.md) -/

/-- LOOKUP answers the ROM's entry, is total, and changes nothing but the model's `result` (the place of the answer is the
model's choice, log 7); the entries of 0 and 255 are 0 and `PWM_MAX`, and none exceeds `PWM_MAX` (R110, R111). -/
def Obligations.LookupAnswersTheRomEntry : Prop :=
  ∀ (s : State) (v : Intensity), ∃ g : Word,
    exec (.lookup v) s = .next { s with result := g } ∧ s.conf.gamma[v.toNat]? = some g ∧
    (v = 0 → g = 0) ∧ (v = 255 → g = s.conf.pwmMax) ∧ g ≤ s.conf.pwmMax

/-- D0's property P1: the answers of LOOKUP are non-decreasing in the intensity, in one configuration (R111; the answer stands in
the model's `result`, log 7). -/
def Obligations.LookupIsMonotone : Prop :=
  ∀ (s t s' t' : State) (a b : Intensity), s.conf = t.conf → a ≤ b →
    exec (.lookup a) s = .next s' → exec (.lookup b) t = .next t' → s'.result ≤ t'.result

/-! ## Encoder (42_encoder.md) -/

/-- ENC packs plane `p` of the three GammaValues at the three colour bits, every other bit 0, and changes nothing but the model's
`result` (the place of the answer is the model's choice, log 7) (R130, R86). -/
def Obligations.EncPacksOnePlaneOfEachColour : Prop :=
  ∀ (s : State) (r g b : Intensity) (p : BitVec 4), ∃ w x y z : Word,
    exec (.enc r g b p) s = .next { s with result := w } ∧
    s.conf.gamma[r.toNat]? = some x ∧ s.conf.gamma[g.toNat]? = some y ∧ s.conf.gamma[b.toNat]? = some z ∧
    w.getLsbD s.conf.rBit = x.getLsbD (15 - p.toNat) ∧
    w.getLsbD s.conf.gBit = y.getLsbD (15 - p.toNat) ∧
    w.getLsbD s.conf.bBit = z.getLsbD (15 - p.toNat) ∧
    ∀ j, j ≠ s.conf.rBit → j ≠ s.conf.gBit → j ≠ s.conf.bBit → w.getLsbD j = false

/-! ## FrameBuffer (41_framebuffer.md) -/

/-- R121: SET_COLOR before INIT raises NOT_INITIALIZED (2, 0); after it, an index of `LED_COUNT` or more raises INVALID_INDEX
(1, the index); otherwise exactly that one element of `FB` takes the Color. An error changes nothing but `STATUS`, and writing
the Color already stored changes nothing. -/
def Obligations.SetColorWritesOneElementOrRaises : Prop :=
  ∀ (s : State) (index : BitVec 16) (r g b : Intensity),
    (s.inited = false → exec (.setColor index r g b) s = .next { s with status := ⟨true, 2, 0⟩ }) ∧
    (s.inited = true → s.conf.ledCount ≤ index.toNat →
      exec (.setColor index r g b) s = .next { s with status := ⟨true, 1, index⟩ }) ∧
    (s.inited = true → index.toNat < s.conf.ledCount → ∃ m : Mem Color,
      exec (.setColor index r g b) s = .next { s with fb := m } ∧
      Mem.read Color.black m index.toNat = ⟨r, g, b⟩ ∧
      (∀ j, j ≠ index.toNat → Mem.read Color.black m j = readFb s j) ∧
      (Mem.wf Color.black s.fb = true → readFb s index.toNat = ⟨r, g, b⟩ → m = s.fb))

/-- R123: SET_COLOR_ALL before INIT raises NOT_INITIALIZED; after it, every element of `FB` takes the Color and nothing else
changes. -/
def Obligations.SetColorAllWritesEveryElementOrRaises : Prop :=
  ∀ (s : State) (r g b : Intensity),
    (s.inited = false → exec (.setColorAll r g b) s = .next { s with status := ⟨true, 2, 0⟩ }) ∧
    (s.inited = true → ∃ m : Mem Color,
      exec (.setColorAll r g b) s = .next { s with fb := m } ∧
      (∀ i < s.conf.ledCount, Mem.read Color.black m i = ⟨r, g, b⟩) ∧
      (∀ i, s.conf.ledCount ≤ i → Mem.read Color.black m i = readFb s i))

/-- R97: SET_COLOR_ALL has the effect on the state of the sequence of SET_COLORs to the indices `0 .. LED_COUNT − 1` (as
requests, one step each), which raises no INVALID_INDEX. The one case left out is a core without LEDs before INIT, where the empty
sequence raises nothing and SET_COLOR_ALL raises NOT_INITIALIZED (R123). -/
def Obligations.SetColorAllIsTheSequenceOfSetColors : Prop :=
  ∀ (s t : State) (r g b : Intensity), s.inited = true ∨ 0 < s.conf.ledCount → s.inbox = [] →
    exec (.setColorAll r g b) s = .next t →
    Host.Core.run Sys2Proof.core s.conf.ledCount
      (load ((List.range s.conf.ledCount).map fun i => encode (.setColor (BitVec.ofNat 16 i) r g b)) s) = .next t

/-! ## FLUSH (42_encoder.md) -/

/-- R131, R138: FLUSH before INIT raises NOT_INITIALIZED; after it, every slot of every LED holds `ENC` of that LED's Color, every
slot no LED maps to holds 0, `PEND_LEFT` is `ROW_COUNT`, `PENDING` is 1 and the sequencer is idle (R30); nothing else changes. -/
def Obligations.FlushEncodesTheWholeFrame : Prop :=
  ∀ s : State,
    (s.inited = false → exec .flush s = .next { s with status := ⟨true, 2, 0⟩ }) ∧
    (s.inited = true → ∃ m : Mem Word,
      exec .flush s =
        .next { s with rb := m, pendLeft := s.conf.rowCount, pending := true, seq := Seq.idle } ∧
      (∀ i < s.conf.ledCount, ∀ p < 16,
        Mem.read 0 m (rbAddr s.conf.toConfig (s.conf.posAt i).row ((s.conf.posAt i).col * 16 + p)) =
          encWord s.conf.toConfig (readFb s i) p) ∧
      (∀ row col p, row < s.conf.rowCount → col < s.conf.channelsPerRow → p < 16 →
        (∀ i < s.conf.ledCount, s.conf.posAt i ≠ ⟨row, col⟩) →
        Mem.read 0 m (rbAddr s.conf.toConfig row (col * 16 + p)) = 0))

/-- R138: "the new `RB` is a function of `FB` and the configuration alone": two initialised cores with one configuration whose
LEDs have the same Colors hold the same RowBuffers after FLUSH, as data, whatever else differs. -/
def Obligations.FlushDependsOnColoursOnly : Prop :=
  ∀ s t s' t' : State, s.inited = true → t.inited = true → s.conf = t.conf →
    (∀ i < s.conf.ledCount, readFb s i = readFb t i) →
    exec .flush s = .next s' → exec .flush t = .next t' → s'.rb = t'.rb

/-- R56: after a FLUSH, bit `R_BIT` of the packed word of plane `p` of an LED is plane `p` of its red GammaValue, and so for green
and blue (P2); SET_COLOR alters no RowBuffer, and of two FLUSHes between which only LEDs of row `row` change Color, the second
leaves every other row with the contents the first gave it (P3); a slot that no LED maps to holds 0. -/
def Obligations.FlushRoundTripAndRowIsolation : Prop :=
  (∀ s t : State, s.inited = true → exec .flush s = .next t → ∀ i < s.conf.ledCount, ∀ p < 16, ∃ x y z : Word,
    s.conf.gamma[(readFb s i).r.toNat]? = some x ∧ s.conf.gamma[(readFb s i).g.toNat]? = some y ∧
    s.conf.gamma[(readFb s i).b.toNat]? = some z ∧
    (readRb t (s.conf.posAt i).row ((s.conf.posAt i).col * 16 + p)).getLsbD s.conf.rBit = x.getLsbD (15 - p) ∧
    (readRb t (s.conf.posAt i).row ((s.conf.posAt i).col * 16 + p)).getLsbD s.conf.gBit = y.getLsbD (15 - p) ∧
    (readRb t (s.conf.posAt i).row ((s.conf.posAt i).col * 16 + p)).getLsbD s.conf.bBit = z.getLsbD (15 - p)) ∧
  (∀ (s t : State) (index : BitVec 16) (r g b : Intensity), exec (.setColor index r g b) s = .next t → t.rb = s.rb) ∧
  (∀ (s t s' t' : State) (row : Nat), s.inited = true → t.inited = true → s.conf = t.conf →
    (∀ i < s.conf.ledCount, (s.conf.posAt i).row ≠ row → readFb t i = readFb s i) →
    exec .flush s = .next s' → exec .flush t = .next t' →
    ∀ row' slot, row' < s.conf.rowCount → row' ≠ row → slot < s.conf.channelsPerRow * 16 →
      readRb t' row' slot = readRb s' row' slot) ∧
  (∀ s t : State, s.inited = true → exec .flush s = .next t → ∀ row col p,
    row < s.conf.rowCount → col < s.conf.channelsPerRow → p < 16 →
    (∀ i < s.conf.ledCount, s.conf.posAt i ≠ ⟨row, col⟩) → readRb t row (col * 16 + p) = 0)

/-- R134: a FLUSH with no SET_COLOR since the last one recomputes the same `RB` and sets `PENDING` and `PEND_LEFT` all the same;
whatever ticks and other requests follow it, they emit exactly what they would have emitted without it. `u` is any later state with
the same `FB` and `RB`. -/
def Obligations.FlushAgainChangesNoPicture : Prop :=
  ∀ s t u : State, s.inited = true → exec .flush s = .next t →
    u.inited = true → u.conf = t.conf → u.fb = t.fb → u.rb = t.rb → u.seq = Seq.idle →
    exec .flush u = .next { u with pendLeft := u.conf.rowCount, pending := true } ∧
    ∀ (requests : List Request) (v a b : State), exec .flush u = .next v →
      Host.Core.run Sys2Proof.core requests.length (load requests v) = .next a →
      Host.Core.run Sys2Proof.core requests.length (load requests u) = .next b → a.trace = b.trace ∧ a.pins = b.pins

/-! ## SerialProtocolEngine (43_serial_protocol.md) -/

/-- R146: with its precondition `CLK = 0`, PULSE drives the data lines, the latch and then the clock up and down, emits one `S`
event, and advances `SEQ.k`. -/
def Obligations.PulseIsOneCycle : Prop :=
  ∀ (s : State) (r g b le : Bool), s.lines.clk = false →
    exec (.pulse r g b le) s =
      .next { s with
        lines := { clk := false, le := le, dr := r, dg := g, db := b }
        trace := s.trace ++ [.shift r g b le]
        pins := s.pins ++ [⟨.dr, r⟩, ⟨.dg, g⟩, ⟨.db, b⟩, ⟨.le, le⟩, ⟨.clk, true⟩, ⟨.clk, false⟩]
        seq := ⟨s.seq.state, s.seq.k + 1⟩ }

/-- What PULSE does does not depend on the level `CLK` held before: the model's choice outside the precondition of R146 (log 10). -/
def Obligations.PulseIgnoresTheClockLevelBefore : Prop :=
  ∀ (s : State) (r g b le level : Bool),
    exec (.pulse r g b le) { s with lines := { s.lines with clk := level } } = exec (.pulse r g b le) s

/-- R150: ROW_TRANSFER of a row of the device emits its `CHANNELS_PER_ROW × 16` cycles, highest column first and plane 0 first,
with the latch in the last cycle only, ends with the latch low, the data lines at their last level and `SEQ.k` cleared (R13 (g)), and
changes nothing else. -/
def Obligations.RowTransferSendsTheRow : Prop :=
  ∀ (s : State) (row : Nat), row < s.conf.rowCount →
    exec (.rowTransfer row) s =
      .next { s with
        lines :=
          { clk := false, le := false, dr := (readRb s row 15).getLsbD s.conf.rBit,
            dg := (readRb s row 15).getLsbD s.conf.gBit, db := (readRb s row 15).getLsbD s.conf.bBit }
        trace := s.trace ++ wireRow s row
        pins := s.pins ++ burstCalls (wireRow s row)
        seq := ⟨.transferRow, 0⟩ }

/-- A row that the device does not have is no operand of ROW_TRANSFER (R150); that the machine then stops with a fault is the
model's choice (log 13). -/
def Obligations.RowTransferOfNoRowFaults : Prop :=
  ∀ (s : State) (row : Nat), s.conf.rowCount ≤ row → exec (.rowTransfer row) s = .fault (.rowOutOfRange row)

/-- R155: GLOBAL_LATCH is 16 cycles with the data lines at 0 and the latch raised from cycle `GL_LATCH_FROM` on; it ends with the
latch low and `SEQ.k` cleared (R13 (g)), and changes nothing but lines, traces and `SEQ`. -/
def Obligations.GlobalLatchSendsItsBurst : Prop :=
  ∀ s : State,
    exec .globalLatch s =
      .next { s with
        lines := { clk := false, le := false, dr := false, dg := false, db := false }
        trace := s.trace ++ wireBlank 16 s.conf.glLatchFrom
        pins := s.pins ++ burstCalls (wireBlank 16 s.conf.glLatchFrom)
        seq := ⟨.globalLatch, 0⟩ }

/-- R157: PWM_RESET is `3 + RST_HIGH_CYCLES` cycles with the data lines at 0, the latch low for 3 and raised for the rest; it ends
with the latch low and `SEQ.k` cleared (R13 (g)), and changes nothing but lines, traces and `SEQ`. -/
def Obligations.PwmResetSendsItsBurst : Prop :=
  ∀ s : State,
    exec .pwmReset s =
      .next { s with
        lines := { clk := false, le := false, dr := false, dg := false, db := false }
        trace := s.trace ++ wireBlank (3 + s.conf.rstHighCycles) 3
        pins := s.pins ++ burstCalls (wireBlank (3 + s.conf.rstHighCycles) 3)
        seq := ⟨.resetCounter, 0⟩ }

/-- R160: CONFIG_WRITE sets `CFG` to `((gain & 0b111111) << 4) | CONFIG_DEFAULT_BASE`, sends the 15-cycle enable burst with the
latch from cycle 2 on and the 16-cycle data burst of `CFG`, most significant bit first on all three data lines, with the latch from
cycle 5 on; the latch is low between and after them, `SEQ.k` is cleared (R13 (g)), and nothing else changes. -/
def Obligations.ConfigWriteSendsTheRegister : Prop :=
  ∀ (s : State) (gain : BitVec 8) (v : Word),
    v = ((gain &&& 0b111111#8).setWidth 16 <<< 4) ||| s.conf.configDefaultBase →
    exec (.configWrite gain) s =
      .next { s with
        cfg := v
        lines := { clk := false, le := false, dr := v.getLsbD 0, dg := v.getLsbD 0, db := v.getLsbD 0 }
        trace := s.trace ++ wireBlank 15 2 ++ wireConfigData v
        pins := s.pins ++ burstCalls (wireBlank 15 2) ++ burstCalls (wireConfigData v)
        seq := ⟨.cfgData, 0⟩ }

/-- R87: the fields of `CFG` after CONFIG_WRITE: bits 15:10 and 3:0 are the template's, bits 9:4 the low six bits of the gain OR'd
with the template's. -/
def Obligations.ConfigRegisterHasItsFields : Prop :=
  ∀ (s t : State) (gain : BitVec 8), exec (.configWrite gain) s = .next t →
    t.cfg.extractLsb' 10 6 = s.conf.configDefaultBase.extractLsb' 10 6 ∧
    t.cfg.extractLsb' 4 6 = gain.extractLsb' 0 6 ||| s.conf.configDefaultBase.extractLsb' 4 6 ∧
    t.cfg.extractLsb' 0 4 = s.conf.configDefaultBase.extractLsb' 0 4

/-- The two upper bits of the gain operand are ignored: gains that agree on their low six bits have one effect, for CONFIG_WRITE
and for WRCFG (R82, R161 (e)). -/
def Obligations.UpperGainBitsAreIgnored : Prop :=
  ∀ (s : State) (gain gain' : BitVec 8), gain &&& 0x3F#8 = gain' &&& 0x3F#8 →
    exec (.configWrite gain) s = exec (.configWrite gain') s ∧ exec (.wrcfg gain) s = exec (.wrcfg gain') s

/-- R94: the events that ROW_TRANSFER, GLOBAL_LATCH, PWM_RESET and the two phases of CONFIG_WRITE add to `TRACE` are bursts of
`CHANNELS_PER_ROW × 16`, 16, `3 + RST_HIGH_CYCLES`, 15 and 16 cycles, with the latch raised for 1, `16 − GL_LATCH_FROM`,
`RST_HIGH_CYCLES`, 13 and 11 of them, "always as one run that ends with the burst". -/
def Obligations.EachBurstEndsInOneLatchRun : Prop :=
  ∀ s : State,
    (∀ row < s.conf.rowCount, ∃ t es, exec (.rowTransfer row) s = .next t ∧ t.trace = s.trace ++ es ∧
      EndsInLatchRun (s.conf.channelsPerRow * 16) 1 es) ∧
    (∃ t es, exec .globalLatch s = .next t ∧ t.trace = s.trace ++ es ∧ EndsInLatchRun 16 (16 - s.conf.glLatchFrom) es) ∧
    (∃ t es, exec .pwmReset s = .next t ∧ t.trace = s.trace ++ es ∧
      EndsInLatchRun (3 + s.conf.rstHighCycles) s.conf.rstHighCycles es) ∧
    ∀ gain : BitVec 8, ∃ t enable data, exec (.configWrite gain) s = .next t ∧ t.trace = s.trace ++ enable ++ data ∧
      EndsInLatchRun 15 13 enable ∧ EndsInLatchRun 16 11 data

/-! ## RowScanner / RefreshScheduler (44_scheduler.md) -/

/-- R177 (with R175): a tick that is not admitted (`TICK_EN = 0`, or the core not idle) changes nothing; an admitted one drives
every row off, sends the three bursts for `RB[ROWIDX]`, enables that row, advances `ROWIDX`, counts the row against the pending
frame as captured, and returns to idle. Nothing else changes. The premise on `PEND_LEFT` is R39 (e), which every step keeps
(StepKeepsTheInvariant). -/
def Obligations.TickRefreshesOneRow : Prop :=
  ∀ s : State,
    (s.tickEn = false ∨ s.seq ≠ Seq.idle → exec .tick s = .next s) ∧
    (s.tickEn = true → s.seq = Seq.idle → (s.pending = true → s.pendLeft ≠ 0) → ∃ en : Mem Bool,
      exec .tick s =
        .next { s with
          rowEn := en
          lines := { clk := false, le := false, dr := false, dg := false, db := false }
          trace := s.trace ++ rowsOffEvents s.conf.toConfig ++ wireRow s s.rowIdx ++ wireBlank 16 s.conf.glLatchFrom ++
            wireBlank (3 + s.conf.rstHighCycles) 3 ++ [.row s.rowIdx true]
          pins := s.pins ++ rowsOffCalls s.conf.toConfig ++ burstCalls (wireRow s s.rowIdx) ++
            burstCalls (wireBlank 16 s.conf.glLatchFrom) ++ burstCalls (wireBlank (3 + s.conf.rstHighCycles) 3) ++
            [⟨.rowEn s.rowIdx, true⟩]
          rowIdx := (s.rowIdx + 1) % s.conf.rowCount
          pendLeft := if s.pending then s.pendLeft - 1 else s.pendLeft
          pending := s.pending && decide (s.pendLeft - 1 ≠ 0)
          seq := Seq.idle } ∧
      ∀ q < s.conf.rowCount, Mem.read false en q = decide (q = s.rowIdx))

/-- Every admitted tick emits `ROW_COUNT + 1` row events and `CHANNELS_PER_ROW × 16 + 16 + 3 + RST_HIGH_CYCLES` shift cycles
(R177, "Events per tick"). -/
def Obligations.TickEmitsAFixedNumberOfEvents : Prop :=
  ∀ s : State, s.tickEn = true → s.seq = Seq.idle → ∃ (t : State) (es : List Event),
    exec .tick s = .next t ∧ t.trace = s.trace ++ es ∧
    es.countP (fun e => match e with | .row _ _ => true | .shift _ _ _ _ => false) = s.conf.rowCount + 1 ∧
    es.countP (fun e => match e with | .row _ _ => false | .shift _ _ _ _ => true) =
      s.conf.channelsPerRow * 16 + 16 + 3 + s.conf.rstHighCycles

/-- R179: a tick drives every row line off, in ascending index order, before its first shift cycle, enables exactly one line, the
row transferred, after its last, and touches no row line between; after it that row alone is enabled. -/
def Obligations.RowEnablesAreMutuallyExclusive : Prop :=
  ∀ s t : State, s.tickEn = true → s.seq = Seq.idle → exec .tick s = .next t →
    (∃ shifts : List Event, (∀ e ∈ shifts, ∃ r g b le, e = .shift r g b le) ∧
      t.trace = s.trace ++ (List.range s.conf.rowCount).map (fun q => Event.row q false) ++ shifts ++ [.row s.rowIdx true]) ∧
    ∀ q < s.conf.rowCount, (rowEnabled t q = true ↔ q = s.rowIdx)

/-- R182, D0's property P4: from an initialised idle core with ticks enabled, over requests with `n` ticks among any host commands,
`ROWIDX` advances by `n` modulo `ROW_COUNT`, and the row of the last tick, the one before it, is the only one enabled; so each row is
selected by exactly one of the first `ROW_COUNT` ticks, in increasing cyclic order. -/
def Obligations.ScanVisitsEveryRowOnce : Prop :=
  ∀ s : State, s.inited = true → s.tickEn = true → s.seq = Seq.idle → s.rowIdx < s.conf.rowCount →
    (∀ requests : List Request, (∀ r ∈ requests, r.external = true) →
      ∃ t, Host.Core.run Sys2Proof.core requests.length (load requests s) = .next t ∧
        t.rowIdx = (s.rowIdx + requests.countP isTick) % s.conf.rowCount ∧
        (0 < requests.countP isTick → ∀ q < s.conf.rowCount,
          (rowEnabled t q = true ↔ q = (s.rowIdx + (requests.countP isTick - 1)) % s.conf.rowCount))) ∧
    ∀ q < s.conf.rowCount, ∃! k, k < s.conf.rowCount ∧
      ∀ (requests : List Request) (t : State), (∀ r ∈ requests, r.external = true) → requests.countP isTick = k + 1 →
        Host.Core.run Sys2Proof.core requests.length (load requests s) = .next t → rowEnabled t q = true

/-- R183, D0's property P7 as read in 90_conflicts.md C2: a tick that finds `PENDING` clear emits exactly the events of the tick
`ROW_COUNT` ticks earlier, the previous one for the same row. `s` is the state before that earlier tick; between the two stand the
other `ROW_COUNT − 1` ticks and any host commands, a WRCFG or a FLUSH among them. -/
def Obligations.TickWithPendingClearRepeats : Prop :=
  ∀ (s t : State) (requests : List Request), s.inited = true → s.tickEn = true → s.seq = Seq.idle →
    s.rowIdx < s.conf.rowCount →
    (∀ r ∈ requests, r.external = true) → requests.countP isTick + 1 = s.conf.rowCount →
    Host.Core.run Sys2Proof.core (requests.length + 1) (load (.tick :: requests) s) = .next t →
    t.pending = false → tickEvents t = tickEvents s

/-- The stronger form that R180 gives: whatever `PENDING` is, a tick emits exactly the events of the tick `ROW_COUNT` ticks
earlier, if no FLUSH came between; any other host commands may. -/
def Obligations.TickRepeatsItsRowsPreviousTick : Prop :=
  ∀ (s t : State) (requests : List Request), s.inited = true → s.tickEn = true → s.seq = Seq.idle →
    s.rowIdx < s.conf.rowCount →
    (∀ r ∈ requests, r.external = true ∧ isFlush r = false) →
    requests.countP isTick = s.conf.rowCount →
    Host.Core.run Sys2Proof.core requests.length (load requests s) = .next t →
    tickEvents t = tickEvents s

/-- R181: `PENDING` is cleared by the `ROW_COUNT`-th tick after the most recent FLUSH and not before, whatever other commands come
between: after a FLUSH and then requests with `n` ticks and no FLUSH, `PEND_LEFT` is `ROW_COUNT − n` (0 from there on) and
`PENDING` is 1 exactly if `n < ROW_COUNT`. -/
def Obligations.PendingLastsOneFullRowSetCycle : Prop :=
  ∀ (s : State) (requests : List Request), s.inited = true → s.tickEn = true →
    (∀ r ∈ requests, r.external = true ∧ isFlush r = false) →
    ∃ t, Host.Core.run Sys2Proof.core (requests.length + 1) (load (encode .flush :: requests) s) = .next t ∧
      t.pendLeft = s.conf.rowCount - requests.countP isTick ∧
      t.pending = decide (requests.countP isTick < s.conf.rowCount)

/-- A Color is seen by no tick until a FLUSH: the events of a tick depend on the configuration, `RB`, `ROWIDX`, `TICK_EN` and
`SEQ` alone, not on `FB`, `PENDING`, `PEND_LEFT`, `CFG` or `STATUS` (R64, R180). -/
def Obligations.TickEventsDependOnRowBuffersOnly : Prop :=
  ∀ s t : State, s.conf = t.conf → s.rb = t.rb → s.rowIdx = t.rowIdx → s.tickEn = t.tickEn → s.seq = t.seq →
    tickEvents s = tickEvents t

/-- From Color to lines: the tick right after a FLUSH sends, for every LED of the row it transfers and every plane `p`, one shift
cycle that carries bit `15 − p` of the three GammaValues, at place `(CHANNELS_PER_ROW − 1 − column) × 16 + p` of the burst, with
the latch raised in the last cycle of the burst only (R131, R150, R177). -/
def Obligations.TickAfterFlushSendsTheGammaPlanes : Prop :=
  ∀ s t : State, s.inited = true → s.tickEn = true → exec .flush s = .next t →
    ∀ i < s.conf.ledCount, (s.conf.posAt i).row = s.rowIdx → ∀ p < 16, ∃ x y z : Word,
      s.conf.gamma[(readFb s i).r.toNat]? = some x ∧ s.conf.gamma[(readFb s i).g.toNat]? = some y ∧
      s.conf.gamma[(readFb s i).b.toNat]? = some z ∧
      (tickEvents t)[s.conf.rowCount + ((s.conf.channelsPerRow - 1 - (s.conf.posAt i).col) * 16 + p)]? =
        some (.shift (x.getLsbD (15 - p)) (y.getLsbD (15 - p)) (z.getLsbD (15 - p))
          (decide ((s.conf.posAt i).col = 0 ∧ p = 15)))

/-! ## Driver contract (45_driver_contract.md) -/

/-- R201, R221: a first INIT brings the lines to idle, the rows off and `RB` to the all-off pattern, clears `ROWIDX`, `PENDING` and
`PEND_LEFT`, writes the configuration with the default gain and enables ticks; it leaves `FB` and `STATUS`. A second raises
ALREADY_INITIALIZED (3, 0) and does nothing else. -/
def Obligations.InitStartsTheCoreOnce : Prop :=
  ∀ s : State,
    (s.inited = true → exec .init s = .next { s with status := ⟨true, 3, 0⟩ }) ∧
    (s.inited = false → ∀ v : Word,
      v = ((s.conf.defaultGain &&& 0b111111#8).setWidth 16 <<< 4) ||| s.conf.configDefaultBase →
      ∃ (m : Mem Word) (en : Mem Bool),
        exec .init s =
          .next { s with
            rb := m
            rowEn := en
            rowIdx := 0
            pending := false
            pendLeft := 0
            cfg := v
            lines := { clk := false, le := false, dr := v.getLsbD 0, dg := v.getLsbD 0, db := v.getLsbD 0 }
            trace := s.trace ++ rowsOffEvents s.conf.toConfig ++ wireBlank 15 2 ++ wireConfigData v
            pins := s.pins ++ [⟨.clk, false⟩, ⟨.le, false⟩, ⟨.dr, false⟩, ⟨.dg, false⟩, ⟨.db, false⟩] ++
              rowsOffCalls s.conf.toConfig ++ burstCalls (wireBlank 15 2) ++ burstCalls (wireConfigData v)
            seq := Seq.idle
            inited := true
            tickEn := true } ∧
        (∀ row slot, row < s.conf.rowCount → slot < s.conf.channelsPerRow * 16 →
          Mem.read 0 m (rbAddr s.conf.toConfig row slot) = 0) ∧
        ∀ q < s.conf.rowCount, Mem.read false en q = false)

/-- R205: WRCFG before INIT raises NOT_INITIALIZED; after it, it writes `CFG` and sends the two configuration bursts; no row line,
no buffer and no flag changes, and the core is idle again. -/
def Obligations.WrcfgRewritesTheGain : Prop :=
  ∀ (s : State) (gain8 : BitVec 8),
    (s.inited = false → exec (.wrcfg gain8) s = .next { s with status := ⟨true, 2, 0⟩ }) ∧
    (s.inited = true → ∀ v : Word,
      v = ((gain8 &&& 0b111111#8).setWidth 16 <<< 4) ||| s.conf.configDefaultBase →
      exec (.wrcfg gain8) s =
        .next { s with
          cfg := v
          lines := { clk := false, le := false, dr := v.getLsbD 0, dg := v.getLsbD 0, db := v.getLsbD 0 }
          trace := s.trace ++ wireBlank 15 2 ++ wireConfigData v
          pins := s.pins ++ burstCalls (wireBlank 15 2) ++ burstCalls (wireConfigData v)
          seq := Seq.idle })

/-! ## Errors (60_exceptions.md) -/

/-- R220: FLUSH, SET_COLOR, SET_COLOR_ALL and WRCFG before INIT raise NOT_INITIALIZED, as their first check, with no other
effect. -/
def Obligations.CommandsBeforeInitRaiseNotInitialized : Prop :=
  ∀ (s : State) (i : Instr), s.inited = false →
    (i = .flush ∨ (∃ index r g b, i = .setColor index r g b) ∨ (∃ r g b, i = .setColorAll r g b) ∨ ∃ gain8, i = .wrcfg gain8) →
    exec i s = .next { s with status := ⟨true, 2, 0⟩ }

/-- `raise` writes the three fields of `STATUS` and nothing else, with the codes of R216 (R217). -/
def Obligations.RaiseWritesStatusOnly : Prop :=
  (∀ (e : ErrorCode) (info : BitVec 16) (s : State), raise e info s = { s with status := ⟨true, e.code, info⟩ }) ∧
  ErrorCode.invalidIndex.code = 1 ∧ ErrorCode.notInitialized.code = 2 ∧ ErrorCode.alreadyInitialized.code = 3 ∧
  ErrorCode.illegalCommand.code = 4

/-- `ERR` is sticky: no step of any kind clears it, so "reset only" does (R36, R217); and as long as it is clear, `CODE` and `INFO`
stay as they are. -/
def Obligations.NoStepClearsErr : Prop :=
  ∀ s t : State, step s = .next t →
    (s.status.err = true → t.status.err = true) ∧ (t.status.err = false → t.status = s.status)

/-- The status port is `{ERR, CODE[3:0], INFO[15:0]}`, 21 bits (R36, R240). -/
def Obligations.StatusPortShowsTheThreeFields : Prop :=
  ∀ s : State, s.statusPort.getLsbD 20 = s.status.err ∧ s.statusPort.extractLsb' 16 4 = s.status.code ∧
    s.statusPort.extractLsb' 0 16 = s.status.info

/-! ## Reset (70_reset_and_hazards.md) -/

/-- R255: after reset the flags, `PEND_LEFT`, `SEQ`, `STATUS` and `TRACE` have the values given; everything else of R40's column
holds whatever was drawn, `ROWIDX` within its range. -/
def Obligations.ResetLeavesTheStatedValues : Prop :=
  ∀ (d : Device) (u : PowerOn),
    let s := State.resetWith d u
    s.inited = false ∧ s.tickEn = false ∧ s.pending = false ∧ s.pendLeft = 0 ∧ s.seq = ⟨.idle, 0⟩ ∧
    s.status = ⟨false, 0, 0⟩ ∧ s.trace = [] ∧ s.pins = [] ∧
    (∀ i < d.ledCount, readFb s i = u.fb i) ∧
    (∀ row slot, row < d.rowCount → slot < d.channelsPerRow * 16 →
      readRb s row slot = u.rb (row * (d.channelsPerRow * 16) + slot)) ∧
    s.rowIdx < d.rowCount ∧ (u.rowIdx < d.rowCount → s.rowIdx = u.rowIdx) ∧ s.cfg = u.cfg ∧ s.lines = u.lines ∧
    (∀ q < d.rowCount, rowEnabled s q = u.rowEn q)

/-- After reset the core ignores tick requests, whatever was drawn (R256). -/
def Obligations.TicksAfterResetAreIgnored : Prop :=
  ∀ (d : Device) (u : PowerOn), step (load [.tick] (State.resetWith d u)) = .next (State.resetWith d u)

/-! ## Whole machine -/

/-- `CoreInv`, the invariant that StepKeepsTheInvariant says every step keeps, holds after reset, for every configuration and every
draw. Its clauses about an initialised core (R39 (b), (c), (g), (h)) begin with INIT. -/
def Obligations.ResetMeetsTheInvariant : Prop := ∀ (d : Device) (u : PowerOn), CoreInv (State.resetWith d u)

/-- Every step a host command or the timer can cause keeps `CoreInv`: clauses (a) to (e) and (g) of R39, and of (h) that `CFG` has
its form for some gain, beside the canonical form of the memories and what holds before INIT. R39 (f) is no clause of it: see
PendingLastsOneFullRowSetCycle. For which gain `CFG` has its form: see ConfigWriteSendsTheRegister. -/
def Obligations.StepKeepsTheInvariant : Prop := ∀ s t : State, CoreInv s → step s = .next t → CoreInv t

/-- Every step, a component driven directly included, keeps the memories in canonical form and within their spaces, and `ROWIDX`
within `[0, ROW_COUNT)` (R50, R52, R26). -/
def Obligations.StepKeepsMemoryCanonical : Prop :=
  ∀ s t : State, MemoryOk s → s.rowIdx < s.conf.rowCount → step s = .next t → MemoryOk t ∧ t.rowIdx < t.conf.rowCount

/-- The two traces agree after reset. -/
def Obligations.TracesAgreeAfterReset : Prop := ∀ (d : Device) (u : PowerOn), TracesAgree (State.resetWith d u)

/-- R147: "The sampled trace ... is the pin trace with each PULSE collapsed to its `S` event and each epilogue dropped": every step
keeps the sampled trace equal to what the chain samples from the pin trace. -/
def Obligations.StepKeepsTheTracesAgreeing : Prop := ∀ s t : State, TracesAgree s → step s = .next t → TracesAgree t

/-- A step only appends to the traces (R38, R63 (d)), changes no configuration (R263), and never clears `INITED` or `TICK_EN`
(R33, R34). -/
def Obligations.StepOnlyAppendsAndNeverDisables : Prop :=
  ∀ s t : State, step s = .next t →
    (∃ es, t.trace = s.trace ++ es) ∧ (∃ ps, t.pins = s.pins ++ ps) ∧ t.conf = s.conf ∧
    (s.inited = true → t.inited = true) ∧ (s.tickEn = true → t.tickEn = true)

/-- R61, R232: who writes what. Only SET_COLOR and SET_COLOR_ALL write `FB`; only FLUSH and INIT `RB`; only TICK and INIT `ROWIDX`
and `ROW_EN`; only FLUSH, TICK and INIT `PENDING` and `PEND_LEFT`; only INIT, WRCFG and CONFIG_WRITE `CFG`; only INIT `INITED` and
`TICK_EN`; only the five host commands `STATUS`; the FrameBuffer operations and FLUSH move no line and emit no event; nothing
writes the configuration. -/
def Obligations.OnlyTheNamedOperationsWriteEachState : Prop :=
  ∀ (i : Instr) (s t : State), exec i s = .next t →
    t.conf = s.conf ∧ t.inbox = s.inbox ∧
    ((∀ index r g b, i ≠ .setColor index r g b) → (∀ r g b, i ≠ .setColorAll r g b) → t.fb = s.fb) ∧
    (i ≠ .flush → i ≠ .init → t.rb = s.rb) ∧
    (i ≠ .tick → i ≠ .init → t.rowIdx = s.rowIdx ∧ t.rowEn = s.rowEn) ∧
    (i ≠ .flush → i ≠ .tick → i ≠ .init → t.pending = s.pending ∧ t.pendLeft = s.pendLeft) ∧
    (i ≠ .init → (∀ gain8, i ≠ .wrcfg gain8) → (∀ gain, i ≠ .configWrite gain) → t.cfg = s.cfg) ∧
    (i ≠ .init → t.inited = s.inited ∧ t.tickEn = s.tickEn) ∧
    (i.external = false ∨ i = .tick → t.status = s.status) ∧
    (i = .flush ∨ (∃ index r g b, i = .setColor index r g b) ∨ (∃ r g b, i = .setColorAll r g b) →
      t.lines = s.lines ∧ t.rowEn = s.rowEn ∧ t.trace = s.trace ∧ t.pins = s.pins) ∧
    ((∀ v, i ≠ .lookup v) → (∀ r g b p, i ≠ .enc r g b p) → t.result = s.result)

/-- No step that a host command, the timer or nothing at all can cause stops the machine: there is no terminal state (R12) and no
fault inside a tick (R185). -/
def Obligations.NoExternalRequestStopsTheCore : Prop :=
  ∀ s : State, (∀ r ∈ s.inbox, r.external = true) → ∃ t, step s = .next t
end

