-- ==== Sys2Proof/Laws/Device.lean ====
section
/-! SUPPORT. What the well-formedness of a configuration (R57, R111) gives: ranges, injectivity of the position table and of
slot addresses, and the order of the gamma table. -/

namespace Sys2Proof.Device

open Sys2Proof.Machine

variable (d : Device)

theorem wf_parts : d.wfGeometry = true ∧ d.wfPosRange = true ∧ d.wfPosInjective = true ∧ d.wfGamma = true ∧
    d.wfColourBits = true ∧ d.wfWindows = true ∧ d.wfIndexWidth = true := by
  have h := d.ok
  simp only [Config.wf, Bool.and_eq_true] at h
  exact ⟨h.1.1.1.1.1.1, h.1.1.1.1.1.2, h.1.1.1.1.2, h.1.1.1.2, h.1.1.2, h.1.2, h.2⟩

theorem rowCount_pos : 0 < d.rowCount := by
  have h := d.wf_parts.1
  simp only [Config.wfGeometry, Bool.and_eq_true, decide_eq_true_eq] at h
  omega

theorem channels_pos : 0 < d.channelsPerRow := by
  have h := d.wf_parts.1
  simp only [Config.wfGeometry, Bool.and_eq_true, decide_eq_true_eq] at h
  omega

theorem pos_length : d.pos.length = d.ledCount := by
  have h := d.wf_parts.2.1
  simp only [Config.wfPosRange, Bool.and_eq_true, decide_eq_true_eq] at h
  exact h.1

theorem posAt_eq_getElem {i : Nat} (h : i < d.pos.length) : d.posAt i = d.pos[i] := by
  simp [Config.posAt, List.getD_eq_getElem?_getD, h]

/-- Every position lies in the matrix (R57 (b)). -/
theorem posAt_inRange {i : Nat} (h : i < d.ledCount) :
    (d.posAt i).row < d.rowCount ∧ (d.posAt i).col < d.channelsPerRow := by
  have hw := d.wf_parts.2.1
  simp only [Config.wfPosRange, Bool.and_eq_true, decide_eq_true_eq, List.all_eq_true] at hw
  have hi : i < d.pos.length := by rw [d.pos_length]; exact h
  rw [d.posAt_eq_getElem hi]
  exact hw.2 _ (List.getElem_mem hi)

/-- No two LogicalLEDs share a position (R57 (c)). -/
theorem posAt_injective {i j : Nat} (hi : i < d.ledCount) (hj : j < d.ledCount) (h : d.posAt i = d.posAt j) : i = j := by
  have hw := d.wf_parts.2.2.1
  simp only [Config.wfPosInjective, decide_eq_true_eq] at hw
  have hi' : i < d.pos.length := by rw [d.pos_length]; exact hi
  have hj' : j < d.pos.length := by rw [d.pos_length]; exact hj
  rw [d.posAt_eq_getElem hi', d.posAt_eq_getElem hj'] at h
  exact (List.Nodup.getElem_inj_iff hw).1 h

theorem ledCount_le : d.ledCount ≤ 65536 := by
  have h := d.wf_parts.2.2.2.2.2.2
  simpa [Config.wfIndexWidth] using h

theorem gamma_parts : d.gamma.length = 256 ∧ d.gamma[0]? = some 0#16 ∧ d.gamma[255]? = some d.pwmMax ∧
    Config.nonDecreasing d.gamma = true := by
  have h := d.wf_parts.2.2.2.1
  simp only [Config.wfGamma, Bool.and_eq_true, decide_eq_true_eq] at h
  exact ⟨h.1.1.1, h.1.1.2, h.1.2, h.2⟩

/-- Every intensity has an entry (R53). -/
theorem gammaAt_eq (v : Intensity) : d.gamma[v.toNat]? = some (gammaAt d.toConfig v) := by
  have h : v.toNat < d.gamma.length := by rw [d.gamma_parts.1]; exact v.isLt
  simp [gammaAt, List.getD_eq_getElem?_getD, h]

@[simp] theorem gammaAt_zero : gammaAt d.toConfig 0 = 0 := by
  have h := d.gammaAt_eq 0
  rw [show (0 : Intensity).toNat = 0 from rfl, d.gamma_parts.2.1] at h
  exact (Option.some.inj h).symm

theorem colourBits : d.rBit < 16 ∧ d.gBit < 16 ∧ d.bBit < 16 ∧ d.rBit ≠ d.gBit ∧ d.rBit ≠ d.bBit ∧ d.gBit ≠ d.bBit := by
  have h := d.wf_parts.2.2.2.2.1
  simp only [Config.wfColourBits, Bool.and_eq_true, decide_eq_true_eq] at h
  tauto

theorem windows : d.defaultGain.toNat < 64 ∧ d.glLatchFrom < 16 ∧ 1 ≤ d.rstHighCycles := by
  have h := d.wf_parts.2.2.2.2.2.1
  simp only [Config.wfWindows, Bool.and_eq_true, decide_eq_true_eq] at h
  tauto

/-! ## Slot addresses -/

theorem rowSlots_eq : d.rowSlots = d.channelsPerRow * 16 := rfl

/-- A slot of an existing column and plane lies in its row (R13 (b)). -/
theorem slotOf_lt {col p : Nat} (hc : col < d.channelsPerRow) (hp : p < 16) : slotOf d.toConfig col p < d.rowSlots := by
  simp only [slotOf, Config.rowSlots, Config.bitsPerChannel]; omega

theorem slotOf_injective {col p col' p' : Nat} (hp : p < 16) (hp' : p' < 16)
    (h : slotOf d.toConfig col p = slotOf d.toConfig col' p') : col = col' ∧ p = p' := by
  simp only [slotOf, Config.bitsPerChannel] at h; omega

/-- Two slots of the device share an index of the space `RB` only if they are the same slot. -/
theorem rbAddr_injective {row slot row' slot' : Nat} (hs : slot < d.rowSlots) (hs' : slot' < d.rowSlots)
    (h : rbAddr d.toConfig row slot = rbAddr d.toConfig row' slot') : row = row' ∧ slot = slot' := by
  simp only [rbAddr] at h
  have hr : row = row' := by
    have h1 : (row * d.rowSlots + slot) / d.rowSlots = row := by
      rw [Nat.mul_comm, Nat.mul_add_div (by omega), Nat.div_eq_of_lt hs, Nat.add_zero]
    have h2 : (row' * d.rowSlots + slot') / d.rowSlots = row' := by
      rw [Nat.mul_comm, Nat.mul_add_div (by omega), Nat.div_eq_of_lt hs', Nat.add_zero]
    rw [← h1, ← h2, h]
  subst hr
  exact ⟨rfl, by omega⟩

theorem rbAddr_lt {row slot : Nat} (hr : row < d.rowCount) (hs : slot < d.rowSlots) :
    rbAddr d.toConfig row slot < d.rowCount * d.rowSlots := by
  have h : (row + 1) * d.rowSlots ≤ d.rowCount * d.rowSlots := Nat.mul_le_mul_right _ hr
  simp only [rbAddr]
  rw [Nat.succ_mul] at h
  omega

/-! ## The order of the gamma table -/

/-- Non-decreasing, entry by entry (R111 (d)). -/
theorem nonDecreasing_iff : ∀ l : List Word, Config.nonDecreasing l = true ↔
    ∀ (a b : Nat) (x y : Word), a ≤ b → l[a]? = some x → l[b]? = some y → x ≤ y
  | [] => by simp [Config.nonDecreasing]
  | [z] => by
    simp only [Config.nonDecreasing, true_iff]
    intro a b x y _ hx hy
    obtain rfl : a = 0 := by simpa using (List.getElem?_eq_some_iff.1 hx).1
    obtain rfl : b = 0 := by simpa using (List.getElem?_eq_some_iff.1 hy).1
    simp_all
  | u :: v :: rest => by
    rw [Config.nonDecreasing, Bool.and_eq_true, decide_eq_true_eq, nonDecreasing_iff (v :: rest)]
    constructor
    · rintro ⟨h1, h2⟩ a b x y hab hx hy
      cases a with
      | zero =>
        cases b with
        | zero => simp_all
        | succ b =>
          simp at hx hy; subst hx
          exact BitVec.le_trans h1 (h2 0 b v y (by omega) (by simp) hy)
      | succ a =>
        cases b with
        | zero => omega
        | succ b => exact h2 a b x y (by omega) (by simpa using hx) (by simpa using hy)
    · exact fun h => ⟨h 0 1 u v (by omega) (by simp) (by simp), fun a b x y hab hx hy =>
        h (a + 1) (b + 1) x y (by omega) (by simpa using hx) (by simpa using hy)⟩

theorem gammaAt_le_gammaAt {a b : Intensity} (h : a ≤ b) : gammaAt d.toConfig a ≤ gammaAt d.toConfig b :=
  (nonDecreasing_iff _).1 d.gamma_parts.2.2.2 a.toNat b.toNat _ _ h (d.gammaAt_eq a) (d.gammaAt_eq b)

theorem gammaAt_255 : gammaAt d.toConfig 255 = d.pwmMax := by
  have h := d.gammaAt_eq 255
  rw [show (255 : Intensity).toNat = 255 from rfl, d.gamma_parts.2.2.1] at h
  exact (Option.some.inj h).symm

end Sys2Proof.Device
end

