-- ==== Sys2Proof/Laws/Memory.lean ====
section
/-! SUPPORT. The laws of element-addressed memory: read after write, and that every operation keeps the canonical form. -/

namespace Sys2Proof.Machine.Mem

variable {α : Type}

@[simp] theorem read_nil (dflt : α) (a : Nat) : read dflt ([] : Mem α) a = dflt := rfl

theorem read_erase_same (dflt : α) (m : Mem α) (a : Nat) : read dflt (erase a m) a = dflt := by
  induction m with
  | nil => rfl
  | cons e rest ih =>
    obtain ⟨k, x⟩ := e
    by_cases h : k = a
    · simpa [erase, h] using ih
    · simpa [erase, read, h] using ih

theorem read_erase_ne (dflt : α) (m : Mem α) {a b : Nat} (hab : b ≠ a) : read dflt (erase a m) b = read dflt m b := by
  induction m with
  | nil => rfl
  | cons e rest ih =>
    obtain ⟨k, x⟩ := e
    by_cases h : k = a
    · have hk : k ≠ b := by omega
      simpa [erase, h, read, show a ≠ b by omega] using ih
    · by_cases hb : k = b
      · simp [erase, read, hb, hab]
      · simpa [erase, h, read, hb] using ih

theorem read_insert_same (dflt : α) (m : Mem α) (a : Nat) (v : α) : read dflt (insert a v m) a = v := by
  induction m with
  | nil => simp [insert, read]
  | cons e rest ih =>
    obtain ⟨k, x⟩ := e
    unfold insert
    split
    · simp [read]
    · split
      · simp [read]
      · simpa [read, show k ≠ a by omega] using ih

theorem read_insert_ne (dflt : α) (m : Mem α) {a b : Nat} (v : α) (hab : b ≠ a) :
    read dflt (insert a v m) b = read dflt m b := by
  induction m with
  | nil => simp [insert, read, hab.symm]
  | cons e rest ih =>
    obtain ⟨k, x⟩ := e
    unfold insert
    split
    · simp [read, hab.symm]
    · split
      · next h => simp [read, hab.symm, show k ≠ b by omega]
      · simp only [read]; split
        · rfl
        · exact ih

/-- A read of the element just written gives the value written. -/
@[simp] theorem read_write_same [DecidableEq α] (dflt : α) (m : Mem α) (a : Nat) (v : α) : read dflt (write dflt m a v) a = v := by
  unfold write
  split
  · next h => rw [read_erase_same, h]
  · exact read_insert_same ..

/-- A write leaves every other element alone. -/
@[simp] theorem read_write_ne [DecidableEq α] (dflt : α) (m : Mem α) {a b : Nat} (v : α) (hab : b ≠ a) :
    read dflt (write dflt m a v) b = read dflt m b := by
  unfold write
  split
  · exact read_erase_ne dflt m hab
  · exact read_insert_ne dflt m v hab

/-- What one write does to every read. -/
theorem read_write [DecidableEq α] (dflt : α) (m : Mem α) (a b : Nat) (v : α) :
    read dflt (write dflt m a v) b = if b = a then v else read dflt m b := by
  split
  · next h => rw [h, read_write_same]
  · next h => exact read_write_ne dflt m v h

/-! ## The canonical form -/

theorem risingFrom_mono {lo lo' : Nat} (m : Mem α) (h : lo' ≤ lo) (hm : risingFrom lo m = true) : risingFrom lo' m = true := by
  cases m with
  | nil => rfl
  | cons e rest =>
    obtain ⟨k, x⟩ := e
    simp only [risingFrom, Bool.and_eq_true, decide_eq_true_eq] at hm ⊢
    exact ⟨by omega, hm.2⟩

theorem risingFrom_erase (lo a : Nat) (m : Mem α) (hm : risingFrom lo m = true) : risingFrom lo (erase a m) = true := by
  induction m generalizing lo with
  | nil => rfl
  | cons e rest ih =>
    obtain ⟨k, x⟩ := e
    simp only [risingFrom, Bool.and_eq_true, decide_eq_true_eq] at hm
    unfold erase
    split
    · exact ih _ (risingFrom_mono rest (by omega) hm.2)
    · simp only [risingFrom, Bool.and_eq_true, decide_eq_true_eq]
      exact ⟨hm.1, ih _ hm.2⟩

theorem risingFrom_insert (lo a : Nat) (v : α) (m : Mem α) (ha : lo ≤ a) (hm : risingFrom lo m = true) :
    risingFrom lo (insert a v m) = true := by
  induction m generalizing lo with
  | nil => simp [insert, risingFrom, ha]
  | cons e rest ih =>
    obtain ⟨k, x⟩ := e
    simp only [risingFrom, Bool.and_eq_true, decide_eq_true_eq] at hm
    unfold insert
    split
    · simp only [risingFrom, Bool.and_eq_true, decide_eq_true_eq]
      exact ⟨ha, by omega, hm.2⟩
    · split
      · next h => subst h; simpa [risingFrom] using hm
      · simp only [risingFrom, Bool.and_eq_true, decide_eq_true_eq]
        exact ⟨hm.1, ih _ (by omega) hm.2⟩

theorem mem_of_mem_erase {e : Nat × α} {a : Nat} {m : Mem α} (h : e ∈ erase a m) : e ∈ m := by
  induction m with
  | nil => exact h
  | cons x rest ih =>
    obtain ⟨k, y⟩ := x
    unfold erase at h
    split at h
    · exact List.mem_cons_of_mem _ (ih h)
    · cases h with
      | head => exact List.mem_cons_self ..
      | tail _ h => exact List.mem_cons_of_mem _ (ih h)

theorem eq_or_mem_of_mem_insert {e : Nat × α} {a : Nat} {v : α} {m : Mem α} (h : e ∈ insert a v m) : e = (a, v) ∨ e ∈ m := by
  induction m with
  | nil => simpa [insert] using h
  | cons x rest ih =>
    obtain ⟨k, y⟩ := x
    unfold insert at h
    split at h
    · simpa using h
    · split at h
      · rcases List.mem_cons.1 h with h | h
        · exact .inl h
        · exact .inr (List.mem_cons_of_mem _ h)
      · rcases List.mem_cons.1 h with h | h
        · exact .inr (h ▸ List.mem_cons_self ..)
        · exact (ih h).imp id (List.mem_cons_of_mem _)

/-- What an entry of a written memory is. -/
theorem mem_write [DecidableEq α] {dflt : α} {e : Nat × α} {a : Nat} {v : α} {m : Mem α} (h : e ∈ write dflt m a v) :
    (e = (a, v) ∧ v ≠ dflt) ∨ e ∈ m := by
  unfold write at h
  split at h
  · exact .inr (mem_of_mem_erase h)
  · next hv => exact (eq_or_mem_of_mem_insert h).imp (fun h => ⟨h, hv⟩) id

/-- A write keeps the canonical form. -/
theorem wf_write [DecidableEq α] {dflt : α} {m : Mem α} (a : Nat) (v : α) (hm : wf dflt m = true) : wf dflt (write dflt m a v) = true := by
  simp only [wf, Bool.and_eq_true, List.all_eq_true, decide_eq_true_eq] at hm ⊢
  refine ⟨?_, fun e he => ?_⟩
  · unfold write
    split
    · exact risingFrom_erase _ _ _ hm.1
    · exact risingFrom_insert _ _ _ _ (Nat.zero_le _) hm.1
  · rcases mem_write he with ⟨h, hv⟩ | h
    · rw [h]; exact hv
    · exact hm.2 e h

/-- A write to an existing element lists only existing elements. -/
theorem inRange_write [DecidableEq α] {dflt : α} {m : Mem α} {size a : Nat} (v : α) (ha : a < size) (hm : inRange size m = true) :
    inRange size (write dflt m a v) = true := by
  simp only [inRange, List.all_eq_true, decide_eq_true_eq] at hm ⊢
  intro e he
  rcases mem_write he with ⟨h, _⟩ | h
  · rw [h]; exact ha
  · exact hm e h

@[simp] theorem wf_nil [DecidableEq α] (dflt : α) : wf dflt ([] : Mem α) = true := rfl

@[simp] theorem inRange_nil (size : Nat) : inRange size ([] : Mem α) = true := rfl

/-- An element outside the listed range reads as the default. -/
theorem read_of_inRange {dflt : α} {m : Mem α} {size a : Nat} (hm : inRange size m = true) (ha : size ≤ a) :
    read dflt m a = dflt := by
  induction m with
  | nil => rfl
  | cons e rest ih =>
    obtain ⟨k, x⟩ := e
    simp only [inRange, List.all_cons, Bool.and_eq_true, decide_eq_true_eq] at hm
    simp only [read, show k ≠ a by omega, if_false]
    exact ih hm.2

theorem read_of_risingFrom {dflt : α} {m : Mem α} {lo a : Nat} (hm : risingFrom lo m = true) (ha : a < lo) :
    read dflt m a = dflt := by
  induction m generalizing lo with
  | nil => rfl
  | cons e rest ih =>
    obtain ⟨k, x⟩ := e
    simp only [risingFrom, Bool.and_eq_true, decide_eq_true_eq] at hm
    simp only [read, show k ≠ a by omega, if_false]
    exact ih hm.2 (by omega)

theorem ext_from {dflt : α} {m n : Mem α} {lo : Nat} (hm : risingFrom lo m = true) (hn : risingFrom lo n = true)
    (hmd : ∀ e ∈ m, e.2 ≠ dflt) (hnd : ∀ e ∈ n, e.2 ≠ dflt) (h : ∀ a, read dflt m a = read dflt n a) : m = n := by
  induction m generalizing n lo with
  | nil =>
    cases n with
    | nil => rfl
    | cons e rest => exact absurd (by simpa [read] using (h e.1).symm) (hnd e (List.mem_cons_self ..))
  | cons e rest ih =>
    obtain ⟨k, x⟩ := e
    cases n with
    | nil => exact absurd (by simpa [read] using h k) (hmd (k, x) (List.mem_cons_self ..))
    | cons e' rest' =>
      obtain ⟨k', x'⟩ := e'
      simp only [risingFrom, Bool.and_eq_true, decide_eq_true_eq] at hm hn
      have hx : x ≠ dflt := hmd (k, x) (List.mem_cons_self ..)
      have hx' : x' ≠ dflt := hnd (k', x') (List.mem_cons_self ..)
      have hk : k = k' := by
        rcases Nat.lt_trichotomy k k' with hlt | heq | hlt
        · have h1 := h k
          simp only [read, if_true, show k' ≠ k by omega, if_false,
            read_of_risingFrom hn.2 (show k < k' + 1 by omega)] at h1
          exact absurd h1 hx
        · exact heq
        · have h1 := h k'
          simp only [read, if_true, show k ≠ k' by omega, if_false,
            read_of_risingFrom hm.2 (show k' < k + 1 by omega)] at h1
          exact absurd h1.symm hx'
      subst hk
      have hxx : x = x' := by simpa [read] using h k
      subst hxx
      congr 1
      refine ih hm.2 hn.2 (fun e he => hmd e (List.mem_cons_of_mem _ he))
        (fun e he => hnd e (List.mem_cons_of_mem _ he)) fun a => ?_
      by_cases ha : k = a
      · subst ha
        rw [read_of_risingFrom hm.2 (Nat.lt_succ_self _), read_of_risingFrom hn.2 (Nat.lt_succ_self _)]
      · simpa [read, ha] using h a

/-- Memories in canonical form that read alike are equal data. -/
theorem ext_of_wf [DecidableEq α] {dflt : α} {m n : Mem α} (hm : wf dflt m = true) (hn : wf dflt n = true)
    (h : ∀ a, read dflt m a = read dflt n a) : m = n := by
  simp only [wf, Bool.and_eq_true, List.all_eq_true, decide_eq_true_eq] at hm hn
  exact ext_from hm.1 hn.1 hm.2 hn.2 h

/-! ## Memory from a function -/

theorem mem_ofFn [DecidableEq α] {dflt : α} {size : Nat} {f : Nat → α} {e : Nat × α} (h : e ∈ ofFn dflt size f) :
    e.1 < size ∧ e.2 = f e.1 ∧ e.2 ≠ dflt := by
  simp only [ofFn, List.mem_filterMap, List.mem_range] at h
  obtain ⟨a, ha, hf⟩ := h
  split at hf
  · cases hf
  · next hne => cases hf; exact ⟨ha, rfl, hne⟩

theorem risingFrom_append {lo : Nat} {m : Mem α} {a : Nat} {v : α} (hm : risingFrom lo m = true) (hlo : lo ≤ a)
    (hlt : ∀ e ∈ m, e.1 < a) : risingFrom lo (m ++ [(a, v)]) = true := by
  induction m generalizing lo with
  | nil => simp [risingFrom, hlo]
  | cons e rest ih =>
    obtain ⟨k, x⟩ := e
    simp only [List.cons_append, risingFrom, Bool.and_eq_true, decide_eq_true_eq] at hm ⊢
    exact ⟨hm.1, ih hm.2 (hlt (k, x) (List.mem_cons_self ..)) fun e he => hlt e (List.mem_cons_of_mem _ he)⟩

theorem ofFn_succ [DecidableEq α] (dflt : α) (size : Nat) (f : Nat → α) :
    ofFn dflt (size + 1) f = ofFn dflt size f ++ if f size = dflt then [] else [(size, f size)] := by
  simp only [ofFn, List.range_succ, List.filterMap_append]
  congr 1
  split <;> simp [*]

theorem wf_ofFn [DecidableEq α] (dflt : α) (size : Nat) (f : Nat → α) : wf dflt (ofFn dflt size f) = true := by
  simp only [wf, Bool.and_eq_true, List.all_eq_true, decide_eq_true_eq]
  refine ⟨?_, fun e he => (mem_ofFn he).2.2⟩
  induction size with
  | zero => rfl
  | succ n ih =>
    rw [ofFn_succ]
    split
    · simpa using ih
    · exact risingFrom_append ih (Nat.zero_le _) fun e he => (mem_ofFn he).1

theorem inRange_ofFn [DecidableEq α] (dflt : α) (size : Nat) (f : Nat → α) : inRange size (ofFn dflt size f) = true := by
  simp only [inRange, List.all_eq_true, decide_eq_true_eq]
  exact fun e he => (mem_ofFn he).1

theorem read_append (dflt : α) (m n : Mem α) (a : Nat) (h : ∀ e ∈ m, e.1 ≠ a) : read dflt (m ++ n) a = read dflt n a := by
  induction m with
  | nil => rfl
  | cons e rest ih =>
    obtain ⟨k, x⟩ := e
    have hk : k ≠ a := h (k, x) (List.mem_cons_self ..)
    simpa [read, hk] using ih fun e he => h e (List.mem_cons_of_mem _ he)

theorem read_append_of_ne (dflt : α) (m : Mem α) {k a : Nat} (v : α) (hk : k ≠ a) :
    read dflt (m ++ [(k, v)]) a = read dflt m a := by
  induction m with
  | nil => simp [read, hk]
  | cons e rest ih =>
    obtain ⟨k', x⟩ := e
    by_cases h : k' = a
    · simp [read, h]
    · simpa [read, h] using ih

/-- Element `a` of the memory made from `f`. -/
theorem read_ofFn [DecidableEq α] (dflt : α) (size : Nat) (f : Nat → α) {a : Nat} (ha : a < size) : read dflt (ofFn dflt size f) a = f a := by
  induction size with
  | zero => omega
  | succ n ih =>
    rw [ofFn_succ]
    by_cases h : a = n
    · subst h
      rw [read_append]
      · split
        · next h => simp [h]
        · simp [read]
      · exact fun e he => Nat.ne_of_lt (mem_ofFn he).1
    · have ih' := ih (by omega)
      split
      · simpa using ih'
      · rw [read_append_of_ne _ _ _ (Ne.symm h), ih']

end Sys2Proof.Machine.Mem
end

