-- ==== Sys2Proof/Laws/State.lean ====
section
/-! SUPPORT. What each primitive update does to each field of the state, one simp lemma per field, so that no later proof unfolds
an update. -/

namespace Sys2Proof.Machine

/-! ## setLine -/

@[simp] theorem setLine_conf (l : Line) (v : Bool) (s : State) : (setLine l v s).conf = s.conf := by cases l <;> rfl

@[simp] theorem setLine_inbox (l : Line) (v : Bool) (s : State) : (setLine l v s).inbox = s.inbox := by cases l <;> rfl

@[simp] theorem setLine_fb (l : Line) (v : Bool) (s : State) : (setLine l v s).fb = s.fb := by cases l <;> rfl

@[simp] theorem setLine_rb (l : Line) (v : Bool) (s : State) : (setLine l v s).rb = s.rb := by cases l <;> rfl

@[simp] theorem setLine_rowIdx (l : Line) (v : Bool) (s : State) : (setLine l v s).rowIdx = s.rowIdx := by cases l <;> rfl

@[simp] theorem setLine_pending (l : Line) (v : Bool) (s : State) : (setLine l v s).pending = s.pending := by cases l <;> rfl

@[simp] theorem setLine_pendLeft (l : Line) (v : Bool) (s : State) : (setLine l v s).pendLeft = s.pendLeft := by cases l <;> rfl

@[simp] theorem setLine_cfg (l : Line) (v : Bool) (s : State) : (setLine l v s).cfg = s.cfg := by cases l <;> rfl

@[simp] theorem setLine_seq (l : Line) (v : Bool) (s : State) : (setLine l v s).seq = s.seq := by cases l <;> rfl

@[simp] theorem setLine_inited (l : Line) (v : Bool) (s : State) : (setLine l v s).inited = s.inited := by cases l <;> rfl

@[simp] theorem setLine_tickEn (l : Line) (v : Bool) (s : State) : (setLine l v s).tickEn = s.tickEn := by cases l <;> rfl

@[simp] theorem setLine_status (l : Line) (v : Bool) (s : State) : (setLine l v s).status = s.status := by cases l <;> rfl

@[simp] theorem setLine_trace (l : Line) (v : Bool) (s : State) : (setLine l v s).trace = s.trace := by cases l <;> rfl

@[simp] theorem setLine_result (l : Line) (v : Bool) (s : State) : (setLine l v s).result = s.result := by cases l <;> rfl

@[simp] theorem setLine_pins (l : Line) (v : Bool) (s : State) : (setLine l v s).pins = s.pins ++ [PinWrite.mk l v] := by
  cases l <;> rfl

@[simp] theorem setLine_clk_lines (v : Bool) (s : State) :
    (setLine .clk v s).lines = { s.lines with clk := v } := rfl

@[simp] theorem setLine_clk_rowEn (v : Bool) (s : State) : (setLine .clk v s).rowEn = s.rowEn := rfl

@[simp] theorem setLine_le_lines (v : Bool) (s : State) :
    (setLine .le v s).lines = { s.lines with le := v } := rfl

@[simp] theorem setLine_le_rowEn (v : Bool) (s : State) : (setLine .le v s).rowEn = s.rowEn := rfl

@[simp] theorem setLine_dr_lines (v : Bool) (s : State) :
    (setLine .dr v s).lines = { s.lines with dr := v } := rfl

@[simp] theorem setLine_dr_rowEn (v : Bool) (s : State) : (setLine .dr v s).rowEn = s.rowEn := rfl

@[simp] theorem setLine_dg_lines (v : Bool) (s : State) :
    (setLine .dg v s).lines = { s.lines with dg := v } := rfl

@[simp] theorem setLine_dg_rowEn (v : Bool) (s : State) : (setLine .dg v s).rowEn = s.rowEn := rfl

@[simp] theorem setLine_db_lines (v : Bool) (s : State) :
    (setLine .db v s).lines = { s.lines with db := v } := rfl

@[simp] theorem setLine_db_rowEn (v : Bool) (s : State) : (setLine .db v s).rowEn = s.rowEn := rfl

@[simp] theorem setLine_rowEn_lines (q : Nat) (v : Bool) (s : State) : (setLine (.rowEn q) v s).lines = s.lines := rfl

@[simp] theorem setLine_rowEn_rowEn (q : Nat) (v : Bool) (s : State) :
    (setLine (.rowEn q) v s).rowEn = Mem.write false s.rowEn q v := rfl

/-! ## emit -/

@[simp] theorem emit_conf (e : Event) (s : State) : (emit e s).conf = s.conf := rfl

@[simp] theorem emit_inbox (e : Event) (s : State) : (emit e s).inbox = s.inbox := rfl

@[simp] theorem emit_fb (e : Event) (s : State) : (emit e s).fb = s.fb := rfl

@[simp] theorem emit_rb (e : Event) (s : State) : (emit e s).rb = s.rb := rfl

@[simp] theorem emit_rowIdx (e : Event) (s : State) : (emit e s).rowIdx = s.rowIdx := rfl

@[simp] theorem emit_pending (e : Event) (s : State) : (emit e s).pending = s.pending := rfl

@[simp] theorem emit_pendLeft (e : Event) (s : State) : (emit e s).pendLeft = s.pendLeft := rfl

@[simp] theorem emit_cfg (e : Event) (s : State) : (emit e s).cfg = s.cfg := rfl

@[simp] theorem emit_seq (e : Event) (s : State) : (emit e s).seq = s.seq := rfl

@[simp] theorem emit_lines (e : Event) (s : State) : (emit e s).lines = s.lines := rfl

@[simp] theorem emit_rowEn (e : Event) (s : State) : (emit e s).rowEn = s.rowEn := rfl

@[simp] theorem emit_inited (e : Event) (s : State) : (emit e s).inited = s.inited := rfl

@[simp] theorem emit_tickEn (e : Event) (s : State) : (emit e s).tickEn = s.tickEn := rfl

@[simp] theorem emit_status (e : Event) (s : State) : (emit e s).status = s.status := rfl

@[simp] theorem emit_pins (e : Event) (s : State) : (emit e s).pins = s.pins := rfl

@[simp] theorem emit_result (e : Event) (s : State) : (emit e s).result = s.result := rfl

@[simp] theorem emit_trace (e : Event) (s : State) : (emit e s).trace = s.trace ++ [e] := rfl

/-! ## setRow -/

@[simp] theorem setRow_conf (q : Nat) (v : Bool) (s : State) : (setRow q v s).conf = s.conf := rfl

@[simp] theorem setRow_inbox (q : Nat) (v : Bool) (s : State) : (setRow q v s).inbox = s.inbox := rfl

@[simp] theorem setRow_fb (q : Nat) (v : Bool) (s : State) : (setRow q v s).fb = s.fb := rfl

@[simp] theorem setRow_rb (q : Nat) (v : Bool) (s : State) : (setRow q v s).rb = s.rb := rfl

@[simp] theorem setRow_rowIdx (q : Nat) (v : Bool) (s : State) : (setRow q v s).rowIdx = s.rowIdx := rfl

@[simp] theorem setRow_pending (q : Nat) (v : Bool) (s : State) : (setRow q v s).pending = s.pending := rfl

@[simp] theorem setRow_pendLeft (q : Nat) (v : Bool) (s : State) : (setRow q v s).pendLeft = s.pendLeft := rfl

@[simp] theorem setRow_cfg (q : Nat) (v : Bool) (s : State) : (setRow q v s).cfg = s.cfg := rfl

@[simp] theorem setRow_seq (q : Nat) (v : Bool) (s : State) : (setRow q v s).seq = s.seq := rfl

@[simp] theorem setRow_lines (q : Nat) (v : Bool) (s : State) : (setRow q v s).lines = s.lines := rfl

@[simp] theorem setRow_inited (q : Nat) (v : Bool) (s : State) : (setRow q v s).inited = s.inited := rfl

@[simp] theorem setRow_tickEn (q : Nat) (v : Bool) (s : State) : (setRow q v s).tickEn = s.tickEn := rfl

@[simp] theorem setRow_status (q : Nat) (v : Bool) (s : State) : (setRow q v s).status = s.status := rfl

@[simp] theorem setRow_result (q : Nat) (v : Bool) (s : State) : (setRow q v s).result = s.result := rfl

@[simp] theorem setRow_rowEn (q : Nat) (v : Bool) (s : State) : (setRow q v s).rowEn = Mem.write false s.rowEn q v := rfl

@[simp] theorem setRow_trace (q : Nat) (v : Bool) (s : State) : (setRow q v s).trace = s.trace ++ [.row q v] := rfl

@[simp] theorem setRow_pins (q : Nat) (v : Bool) (s : State) :
    (setRow q v s).pins = s.pins ++ [PinWrite.mk (.rowEn q) v] := rfl

/-! ## enterState -/

@[simp] theorem enterState_conf (st : SeqState) (s : State) : (enterState st s).conf = s.conf := rfl

@[simp] theorem enterState_inbox (st : SeqState) (s : State) : (enterState st s).inbox = s.inbox := rfl

@[simp] theorem enterState_fb (st : SeqState) (s : State) : (enterState st s).fb = s.fb := rfl

@[simp] theorem enterState_rb (st : SeqState) (s : State) : (enterState st s).rb = s.rb := rfl

@[simp] theorem enterState_rowIdx (st : SeqState) (s : State) : (enterState st s).rowIdx = s.rowIdx := rfl

@[simp] theorem enterState_pending (st : SeqState) (s : State) : (enterState st s).pending = s.pending := rfl

@[simp] theorem enterState_pendLeft (st : SeqState) (s : State) : (enterState st s).pendLeft = s.pendLeft := rfl

@[simp] theorem enterState_cfg (st : SeqState) (s : State) : (enterState st s).cfg = s.cfg := rfl

@[simp] theorem enterState_lines (st : SeqState) (s : State) : (enterState st s).lines = s.lines := rfl

@[simp] theorem enterState_rowEn (st : SeqState) (s : State) : (enterState st s).rowEn = s.rowEn := rfl

@[simp] theorem enterState_inited (st : SeqState) (s : State) : (enterState st s).inited = s.inited := rfl

@[simp] theorem enterState_tickEn (st : SeqState) (s : State) : (enterState st s).tickEn = s.tickEn := rfl

@[simp] theorem enterState_status (st : SeqState) (s : State) : (enterState st s).status = s.status := rfl

@[simp] theorem enterState_trace (st : SeqState) (s : State) : (enterState st s).trace = s.trace := rfl

@[simp] theorem enterState_pins (st : SeqState) (s : State) : (enterState st s).pins = s.pins := rfl

@[simp] theorem enterState_result (st : SeqState) (s : State) : (enterState st s).result = s.result := rfl

@[simp] theorem enterState_seq (st : SeqState) (s : State) : (enterState st s).seq = ⟨st, 0⟩ := rfl

/-! ## tickEntry -/

@[simp] theorem tickEntry_conf  (s : State) : (tickEntry s).conf = s.conf := rfl

@[simp] theorem tickEntry_inbox  (s : State) : (tickEntry s).inbox = s.inbox := rfl

@[simp] theorem tickEntry_fb  (s : State) : (tickEntry s).fb = s.fb := rfl

@[simp] theorem tickEntry_rb  (s : State) : (tickEntry s).rb = s.rb := rfl

@[simp] theorem tickEntry_rowIdx  (s : State) : (tickEntry s).rowIdx = s.rowIdx := rfl

@[simp] theorem tickEntry_pending  (s : State) : (tickEntry s).pending = s.pending := rfl

@[simp] theorem tickEntry_pendLeft  (s : State) : (tickEntry s).pendLeft = s.pendLeft := rfl

@[simp] theorem tickEntry_cfg  (s : State) : (tickEntry s).cfg = s.cfg := rfl

@[simp] theorem tickEntry_lines  (s : State) : (tickEntry s).lines = s.lines := rfl

@[simp] theorem tickEntry_rowEn  (s : State) : (tickEntry s).rowEn = s.rowEn := rfl

@[simp] theorem tickEntry_inited  (s : State) : (tickEntry s).inited = s.inited := rfl

@[simp] theorem tickEntry_tickEn  (s : State) : (tickEntry s).tickEn = s.tickEn := rfl

@[simp] theorem tickEntry_status  (s : State) : (tickEntry s).status = s.status := rfl

@[simp] theorem tickEntry_trace  (s : State) : (tickEntry s).trace = s.trace := rfl

@[simp] theorem tickEntry_pins  (s : State) : (tickEntry s).pins = s.pins := rfl

@[simp] theorem tickEntry_result  (s : State) : (tickEntry s).result = s.result := rfl

@[simp] theorem tickEntry_seq (s : State) : (tickEntry s).seq = ⟨.transferRow, 0⟩ := rfl

/-! ## returnToIdle -/

@[simp] theorem returnToIdle_conf  (s : State) : (returnToIdle s).conf = s.conf := rfl

@[simp] theorem returnToIdle_inbox  (s : State) : (returnToIdle s).inbox = s.inbox := rfl

@[simp] theorem returnToIdle_fb  (s : State) : (returnToIdle s).fb = s.fb := rfl

@[simp] theorem returnToIdle_rb  (s : State) : (returnToIdle s).rb = s.rb := rfl

@[simp] theorem returnToIdle_rowIdx  (s : State) : (returnToIdle s).rowIdx = s.rowIdx := rfl

@[simp] theorem returnToIdle_pending  (s : State) : (returnToIdle s).pending = s.pending := rfl

@[simp] theorem returnToIdle_pendLeft  (s : State) : (returnToIdle s).pendLeft = s.pendLeft := rfl

@[simp] theorem returnToIdle_cfg  (s : State) : (returnToIdle s).cfg = s.cfg := rfl

@[simp] theorem returnToIdle_lines  (s : State) : (returnToIdle s).lines = s.lines := rfl

@[simp] theorem returnToIdle_rowEn  (s : State) : (returnToIdle s).rowEn = s.rowEn := rfl

@[simp] theorem returnToIdle_inited  (s : State) : (returnToIdle s).inited = s.inited := rfl

@[simp] theorem returnToIdle_tickEn  (s : State) : (returnToIdle s).tickEn = s.tickEn := rfl

@[simp] theorem returnToIdle_status  (s : State) : (returnToIdle s).status = s.status := rfl

@[simp] theorem returnToIdle_trace  (s : State) : (returnToIdle s).trace = s.trace := rfl

@[simp] theorem returnToIdle_pins  (s : State) : (returnToIdle s).pins = s.pins := rfl

@[simp] theorem returnToIdle_result  (s : State) : (returnToIdle s).result = s.result := rfl

@[simp] theorem returnToIdle_seq (s : State) : (returnToIdle s).seq = Seq.idle := rfl

/-! ## raise -/

@[simp] theorem raise_conf (e : ErrorCode) (info : BitVec 16) (s : State) : (raise e info s).conf = s.conf := rfl

@[simp] theorem raise_inbox (e : ErrorCode) (info : BitVec 16) (s : State) : (raise e info s).inbox = s.inbox := rfl

@[simp] theorem raise_fb (e : ErrorCode) (info : BitVec 16) (s : State) : (raise e info s).fb = s.fb := rfl

@[simp] theorem raise_rb (e : ErrorCode) (info : BitVec 16) (s : State) : (raise e info s).rb = s.rb := rfl

@[simp] theorem raise_rowIdx (e : ErrorCode) (info : BitVec 16) (s : State) : (raise e info s).rowIdx = s.rowIdx := rfl

@[simp] theorem raise_pending (e : ErrorCode) (info : BitVec 16) (s : State) : (raise e info s).pending = s.pending := rfl

@[simp] theorem raise_pendLeft (e : ErrorCode) (info : BitVec 16) (s : State) : (raise e info s).pendLeft = s.pendLeft := rfl

@[simp] theorem raise_cfg (e : ErrorCode) (info : BitVec 16) (s : State) : (raise e info s).cfg = s.cfg := rfl

@[simp] theorem raise_seq (e : ErrorCode) (info : BitVec 16) (s : State) : (raise e info s).seq = s.seq := rfl

@[simp] theorem raise_lines (e : ErrorCode) (info : BitVec 16) (s : State) : (raise e info s).lines = s.lines := rfl

@[simp] theorem raise_rowEn (e : ErrorCode) (info : BitVec 16) (s : State) : (raise e info s).rowEn = s.rowEn := rfl

@[simp] theorem raise_inited (e : ErrorCode) (info : BitVec 16) (s : State) : (raise e info s).inited = s.inited := rfl

@[simp] theorem raise_tickEn (e : ErrorCode) (info : BitVec 16) (s : State) : (raise e info s).tickEn = s.tickEn := rfl

@[simp] theorem raise_trace (e : ErrorCode) (info : BitVec 16) (s : State) : (raise e info s).trace = s.trace := rfl

@[simp] theorem raise_pins (e : ErrorCode) (info : BitVec 16) (s : State) : (raise e info s).pins = s.pins := rfl

@[simp] theorem raise_result (e : ErrorCode) (info : BitVec 16) (s : State) : (raise e info s).result = s.result := rfl

@[simp] theorem raise_status (e : ErrorCode) (info : BitVec 16) (s : State) :
    (raise e info s).status = ⟨true, e.code, info⟩ := rfl

/-! ## writeFb -/

@[simp] theorem writeFb_conf (i : Nat) (v : Color) (s : State) : (writeFb i v s).conf = s.conf := rfl

@[simp] theorem writeFb_inbox (i : Nat) (v : Color) (s : State) : (writeFb i v s).inbox = s.inbox := rfl

@[simp] theorem writeFb_rb (i : Nat) (v : Color) (s : State) : (writeFb i v s).rb = s.rb := rfl

@[simp] theorem writeFb_rowIdx (i : Nat) (v : Color) (s : State) : (writeFb i v s).rowIdx = s.rowIdx := rfl

@[simp] theorem writeFb_pending (i : Nat) (v : Color) (s : State) : (writeFb i v s).pending = s.pending := rfl

@[simp] theorem writeFb_pendLeft (i : Nat) (v : Color) (s : State) : (writeFb i v s).pendLeft = s.pendLeft := rfl

@[simp] theorem writeFb_cfg (i : Nat) (v : Color) (s : State) : (writeFb i v s).cfg = s.cfg := rfl

@[simp] theorem writeFb_seq (i : Nat) (v : Color) (s : State) : (writeFb i v s).seq = s.seq := rfl

@[simp] theorem writeFb_lines (i : Nat) (v : Color) (s : State) : (writeFb i v s).lines = s.lines := rfl

@[simp] theorem writeFb_rowEn (i : Nat) (v : Color) (s : State) : (writeFb i v s).rowEn = s.rowEn := rfl

@[simp] theorem writeFb_inited (i : Nat) (v : Color) (s : State) : (writeFb i v s).inited = s.inited := rfl

@[simp] theorem writeFb_tickEn (i : Nat) (v : Color) (s : State) : (writeFb i v s).tickEn = s.tickEn := rfl

@[simp] theorem writeFb_status (i : Nat) (v : Color) (s : State) : (writeFb i v s).status = s.status := rfl

@[simp] theorem writeFb_trace (i : Nat) (v : Color) (s : State) : (writeFb i v s).trace = s.trace := rfl

@[simp] theorem writeFb_pins (i : Nat) (v : Color) (s : State) : (writeFb i v s).pins = s.pins := rfl

@[simp] theorem writeFb_result (i : Nat) (v : Color) (s : State) : (writeFb i v s).result = s.result := rfl

@[simp] theorem writeFb_fb (i : Nat) (v : Color) (s : State) :
    (writeFb i v s).fb = Mem.write Color.black s.fb i v := rfl

/-! ## writeRb -/

@[simp] theorem writeRb_conf (row slot : Nat) (v : Word) (s : State) : (writeRb row slot v s).conf = s.conf := rfl

@[simp] theorem writeRb_inbox (row slot : Nat) (v : Word) (s : State) : (writeRb row slot v s).inbox = s.inbox := rfl

@[simp] theorem writeRb_fb (row slot : Nat) (v : Word) (s : State) : (writeRb row slot v s).fb = s.fb := rfl

@[simp] theorem writeRb_rowIdx (row slot : Nat) (v : Word) (s : State) : (writeRb row slot v s).rowIdx = s.rowIdx := rfl

@[simp] theorem writeRb_pending (row slot : Nat) (v : Word) (s : State) : (writeRb row slot v s).pending = s.pending := rfl

@[simp] theorem writeRb_pendLeft (row slot : Nat) (v : Word) (s : State) : (writeRb row slot v s).pendLeft = s.pendLeft := rfl

@[simp] theorem writeRb_cfg (row slot : Nat) (v : Word) (s : State) : (writeRb row slot v s).cfg = s.cfg := rfl

@[simp] theorem writeRb_seq (row slot : Nat) (v : Word) (s : State) : (writeRb row slot v s).seq = s.seq := rfl

@[simp] theorem writeRb_lines (row slot : Nat) (v : Word) (s : State) : (writeRb row slot v s).lines = s.lines := rfl

@[simp] theorem writeRb_rowEn (row slot : Nat) (v : Word) (s : State) : (writeRb row slot v s).rowEn = s.rowEn := rfl

@[simp] theorem writeRb_inited (row slot : Nat) (v : Word) (s : State) : (writeRb row slot v s).inited = s.inited := rfl

@[simp] theorem writeRb_tickEn (row slot : Nat) (v : Word) (s : State) : (writeRb row slot v s).tickEn = s.tickEn := rfl

@[simp] theorem writeRb_status (row slot : Nat) (v : Word) (s : State) : (writeRb row slot v s).status = s.status := rfl

@[simp] theorem writeRb_trace (row slot : Nat) (v : Word) (s : State) : (writeRb row slot v s).trace = s.trace := rfl

@[simp] theorem writeRb_pins (row slot : Nat) (v : Word) (s : State) : (writeRb row slot v s).pins = s.pins := rfl

@[simp] theorem writeRb_result (row slot : Nat) (v : Word) (s : State) : (writeRb row slot v s).result = s.result := rfl

@[simp] theorem writeRb_rb (row slot : Nat) (v : Word) (s : State) :
    (writeRb row slot v s).rb = Mem.write 0 s.rb (rbAddr s.conf.toConfig row slot) v := rfl

/-! ## clearRb -/

@[simp] theorem clearRb_conf  (s : State) : (clearRb s).conf = s.conf := rfl

@[simp] theorem clearRb_inbox  (s : State) : (clearRb s).inbox = s.inbox := rfl

@[simp] theorem clearRb_fb  (s : State) : (clearRb s).fb = s.fb := rfl

@[simp] theorem clearRb_rowIdx  (s : State) : (clearRb s).rowIdx = s.rowIdx := rfl

@[simp] theorem clearRb_pending  (s : State) : (clearRb s).pending = s.pending := rfl

@[simp] theorem clearRb_pendLeft  (s : State) : (clearRb s).pendLeft = s.pendLeft := rfl

@[simp] theorem clearRb_cfg  (s : State) : (clearRb s).cfg = s.cfg := rfl

@[simp] theorem clearRb_seq  (s : State) : (clearRb s).seq = s.seq := rfl

@[simp] theorem clearRb_lines  (s : State) : (clearRb s).lines = s.lines := rfl

@[simp] theorem clearRb_rowEn  (s : State) : (clearRb s).rowEn = s.rowEn := rfl

@[simp] theorem clearRb_inited  (s : State) : (clearRb s).inited = s.inited := rfl

@[simp] theorem clearRb_tickEn  (s : State) : (clearRb s).tickEn = s.tickEn := rfl

@[simp] theorem clearRb_status  (s : State) : (clearRb s).status = s.status := rfl

@[simp] theorem clearRb_trace  (s : State) : (clearRb s).trace = s.trace := rfl

@[simp] theorem clearRb_pins  (s : State) : (clearRb s).pins = s.pins := rfl

@[simp] theorem clearRb_result  (s : State) : (clearRb s).result = s.result := rfl

@[simp] theorem clearRb_rb (s : State) : (clearRb s).rb = [] := rfl

/-! ## markPending -/

@[simp] theorem markPending_conf  (s : State) : (markPending s).conf = s.conf := rfl

@[simp] theorem markPending_inbox  (s : State) : (markPending s).inbox = s.inbox := rfl

@[simp] theorem markPending_fb  (s : State) : (markPending s).fb = s.fb := rfl

@[simp] theorem markPending_rb  (s : State) : (markPending s).rb = s.rb := rfl

@[simp] theorem markPending_rowIdx  (s : State) : (markPending s).rowIdx = s.rowIdx := rfl

@[simp] theorem markPending_cfg  (s : State) : (markPending s).cfg = s.cfg := rfl

@[simp] theorem markPending_seq  (s : State) : (markPending s).seq = s.seq := rfl

@[simp] theorem markPending_lines  (s : State) : (markPending s).lines = s.lines := rfl

@[simp] theorem markPending_rowEn  (s : State) : (markPending s).rowEn = s.rowEn := rfl

@[simp] theorem markPending_inited  (s : State) : (markPending s).inited = s.inited := rfl

@[simp] theorem markPending_tickEn  (s : State) : (markPending s).tickEn = s.tickEn := rfl

@[simp] theorem markPending_status  (s : State) : (markPending s).status = s.status := rfl

@[simp] theorem markPending_trace  (s : State) : (markPending s).trace = s.trace := rfl

@[simp] theorem markPending_pins  (s : State) : (markPending s).pins = s.pins := rfl

@[simp] theorem markPending_result  (s : State) : (markPending s).result = s.result := rfl

@[simp] theorem markPending_pending (s : State) : (markPending s).pending = true := rfl

@[simp] theorem markPending_pendLeft (s : State) : (markPending s).pendLeft = s.conf.rowCount := rfl

/-! ## clearPending -/

@[simp] theorem clearPending_conf  (s : State) : (clearPending s).conf = s.conf := rfl

@[simp] theorem clearPending_inbox  (s : State) : (clearPending s).inbox = s.inbox := rfl

@[simp] theorem clearPending_fb  (s : State) : (clearPending s).fb = s.fb := rfl

@[simp] theorem clearPending_rb  (s : State) : (clearPending s).rb = s.rb := rfl

@[simp] theorem clearPending_rowIdx  (s : State) : (clearPending s).rowIdx = s.rowIdx := rfl

@[simp] theorem clearPending_cfg  (s : State) : (clearPending s).cfg = s.cfg := rfl

@[simp] theorem clearPending_seq  (s : State) : (clearPending s).seq = s.seq := rfl

@[simp] theorem clearPending_lines  (s : State) : (clearPending s).lines = s.lines := rfl

@[simp] theorem clearPending_rowEn  (s : State) : (clearPending s).rowEn = s.rowEn := rfl

@[simp] theorem clearPending_inited  (s : State) : (clearPending s).inited = s.inited := rfl

@[simp] theorem clearPending_tickEn  (s : State) : (clearPending s).tickEn = s.tickEn := rfl

@[simp] theorem clearPending_status  (s : State) : (clearPending s).status = s.status := rfl

@[simp] theorem clearPending_trace  (s : State) : (clearPending s).trace = s.trace := rfl

@[simp] theorem clearPending_pins  (s : State) : (clearPending s).pins = s.pins := rfl

@[simp] theorem clearPending_result  (s : State) : (clearPending s).result = s.result := rfl

@[simp] theorem clearPending_pending (s : State) : (clearPending s).pending = false := rfl

@[simp] theorem clearPending_pendLeft (s : State) : (clearPending s).pendLeft = 0 := rfl

/-! ## countTransferredRow -/

@[simp] theorem countTransferredRow_conf (pend : Bool) (s : State) : (countTransferredRow pend s).conf = s.conf := by cases pend <;> rfl

@[simp] theorem countTransferredRow_inbox (pend : Bool) (s : State) : (countTransferredRow pend s).inbox = s.inbox := by cases pend <;> rfl

@[simp] theorem countTransferredRow_fb (pend : Bool) (s : State) : (countTransferredRow pend s).fb = s.fb := by cases pend <;> rfl

@[simp] theorem countTransferredRow_rb (pend : Bool) (s : State) : (countTransferredRow pend s).rb = s.rb := by cases pend <;> rfl

@[simp] theorem countTransferredRow_rowIdx (pend : Bool) (s : State) : (countTransferredRow pend s).rowIdx = s.rowIdx := by cases pend <;> rfl

@[simp] theorem countTransferredRow_cfg (pend : Bool) (s : State) : (countTransferredRow pend s).cfg = s.cfg := by cases pend <;> rfl

@[simp] theorem countTransferredRow_seq (pend : Bool) (s : State) : (countTransferredRow pend s).seq = s.seq := by cases pend <;> rfl

@[simp] theorem countTransferredRow_lines (pend : Bool) (s : State) : (countTransferredRow pend s).lines = s.lines := by cases pend <;> rfl

@[simp] theorem countTransferredRow_rowEn (pend : Bool) (s : State) : (countTransferredRow pend s).rowEn = s.rowEn := by cases pend <;> rfl

@[simp] theorem countTransferredRow_inited (pend : Bool) (s : State) : (countTransferredRow pend s).inited = s.inited := by cases pend <;> rfl

@[simp] theorem countTransferredRow_tickEn (pend : Bool) (s : State) : (countTransferredRow pend s).tickEn = s.tickEn := by cases pend <;> rfl

@[simp] theorem countTransferredRow_status (pend : Bool) (s : State) : (countTransferredRow pend s).status = s.status := by cases pend <;> rfl

@[simp] theorem countTransferredRow_trace (pend : Bool) (s : State) : (countTransferredRow pend s).trace = s.trace := by cases pend <;> rfl

@[simp] theorem countTransferredRow_pins (pend : Bool) (s : State) : (countTransferredRow pend s).pins = s.pins := by cases pend <;> rfl

@[simp] theorem countTransferredRow_result (pend : Bool) (s : State) : (countTransferredRow pend s).result = s.result := by cases pend <;> rfl

@[simp] theorem countTransferredRow_pendLeft (pend : Bool) (s : State) :
    (countTransferredRow pend s).pendLeft = if pend then s.pendLeft - 1 else s.pendLeft := by cases pend <;> rfl

@[simp] theorem countTransferredRow_pending (pend : Bool) (s : State) :
    (countTransferredRow pend s).pending = if pend ∧ s.pendLeft - 1 = 0 then false else s.pending := by
  cases pend <;> simp [countTransferredRow]

/-! ## putRequest -/

@[simp] theorem putRequest_conf (r : Request) (s : State) : (putRequest r s).conf = s.conf := rfl

@[simp] theorem putRequest_fb (r : Request) (s : State) : (putRequest r s).fb = s.fb := rfl

@[simp] theorem putRequest_rb (r : Request) (s : State) : (putRequest r s).rb = s.rb := rfl

@[simp] theorem putRequest_rowIdx (r : Request) (s : State) : (putRequest r s).rowIdx = s.rowIdx := rfl

@[simp] theorem putRequest_pending (r : Request) (s : State) : (putRequest r s).pending = s.pending := rfl

@[simp] theorem putRequest_pendLeft (r : Request) (s : State) : (putRequest r s).pendLeft = s.pendLeft := rfl

@[simp] theorem putRequest_cfg (r : Request) (s : State) : (putRequest r s).cfg = s.cfg := rfl

@[simp] theorem putRequest_seq (r : Request) (s : State) : (putRequest r s).seq = s.seq := rfl

@[simp] theorem putRequest_lines (r : Request) (s : State) : (putRequest r s).lines = s.lines := rfl

@[simp] theorem putRequest_rowEn (r : Request) (s : State) : (putRequest r s).rowEn = s.rowEn := rfl

@[simp] theorem putRequest_inited (r : Request) (s : State) : (putRequest r s).inited = s.inited := rfl

@[simp] theorem putRequest_tickEn (r : Request) (s : State) : (putRequest r s).tickEn = s.tickEn := rfl

@[simp] theorem putRequest_status (r : Request) (s : State) : (putRequest r s).status = s.status := rfl

@[simp] theorem putRequest_trace (r : Request) (s : State) : (putRequest r s).trace = s.trace := rfl

@[simp] theorem putRequest_pins (r : Request) (s : State) : (putRequest r s).pins = s.pins := rfl

@[simp] theorem putRequest_result (r : Request) (s : State) : (putRequest r s).result = s.result := rfl

@[simp] theorem putRequest_inbox (r : Request) (s : State) : (putRequest r s).inbox = r :: s.inbox := rfl

end Sys2Proof.Machine
end

