-- ==== Sys2Proof/Laws/Ops.lean ====
section
/-! SUPPORT. The shared operations in closed form: one equation each that says everything the operation does. -/

namespace Sys2Proof.Machine

open Sys2Proof.Safety

/-! ## Lines -/

/-- A row event writes one row line and is recorded on both traces. -/
theorem setRow_eq (q : Nat) (v : Bool) (s : State) :
    setRow q v s = { s with rowEn := Mem.write false s.rowEn q v, trace := s.trace ++ [.row q v],
                            pins := s.pins ++ [PinWrite.mk (.rowEn q) v] } := rfl

@[simp] theorem rowEnabled_setRow (q q' : Nat) (v : Bool) (s : State) :
    rowEnabled (setRow q v s) q' = if q' = q then v else rowEnabled s q' := by
  simp only [rowEnabled, lineLevel, setRow_rowEn]
  exact Mem.read_write false s.rowEn q q' v

/-- The row lines after the first `n` of them have been driven off. -/
def rowsOff (n : Nat) (m : Mem Bool) : Mem Bool := (List.range n).foldl (fun m q => Mem.write false m q false) m

theorem rowsOff_succ (n : Nat) (m : Mem Bool) : rowsOff (n + 1) m = Mem.write false (rowsOff n m) n false := by
  simp [rowsOff, List.range_succ]

theorem read_rowsOff (n : Nat) (m : Mem Bool) (q : Nat) :
    Mem.read false (rowsOff n m) q = if q < n then false else Mem.read false m q := by
  induction n with
  | zero => simp [rowsOff]
  | succ n ih =>
    rw [rowsOff_succ, Mem.read_write, ih]
    by_cases h : q = n
    · simp [h]
    · by_cases h' : q < n
      · simp [h, h', show q < n + 1 by omega]
      · simp [h, h', show ¬ q < n + 1 by omega]

theorem wf_rowsOff (n : Nat) {m : Mem Bool} (hm : Mem.wf false m = true) : Mem.wf false (rowsOff n m) = true := by
  induction n with
  | zero => simpa [rowsOff] using hm
  | succ n ih => rw [rowsOff_succ]; exact Mem.wf_write _ _ ih

theorem inRange_rowsOff {n size : Nat} {m : Mem Bool} (h : n ≤ size) (hm : Mem.inRange size m = true) :
    Mem.inRange size (rowsOff n m) = true := by
  induction n with
  | zero => simpa [rowsOff] using hm
  | succ n ih => rw [rowsOff_succ]; exact Mem.inRange_write _ (by omega) (ih (by omega))

theorem foldl_setRow_eq (n : Nat) (s : State) :
    (List.range n).foldl (fun s q => setRow q false s) s =
      { s with rowEn := rowsOff n s.rowEn, trace := s.trace ++ (List.range n).map (fun q => Event.row q false),
               pins := s.pins ++ (List.range n).map (fun q => PinWrite.mk (.rowEn q) false) } := by
  induction n with
  | zero => simp [rowsOff]
  | succ n ih =>
    rw [List.range_succ, List.foldl_append, ih, rowsOff_succ]
    simp [setRow_eq]

/-- Every row line driven off, in ascending index order, and nothing else (R179). -/
theorem allRowsOff_eq (s : State) :
    allRowsOff s = { s with rowEn := rowsOff s.conf.rowCount s.rowEn, trace := s.trace ++ rowsOffEvents s.conf.toConfig,
                            pins := s.pins ++ rowsOffCalls s.conf.toConfig } := foldl_setRow_eq ..

/-- The calls of INIT's idle levels (R201). -/
theorem idleLines_eq (s : State) :
    idleLines s = { s with lines := ⟨false, false, false, false, false⟩,
                           pins := s.pins ++ [⟨.clk, false⟩, ⟨.le, false⟩, ⟨.dr, false⟩, ⟨.dg, false⟩, ⟨.db, false⟩] } := by
  simp [idleLines, setLine]

/-! ## Bursts -/

/-- PULSE, all of it (R146). -/
theorem pulse_eq (r g b le : Bool) (s : State) :
    pulse r g b le s = { s with lines := ⟨false, le, r, g, b⟩, trace := s.trace ++ [.shift r g b le],
                                pins := s.pins ++ eventCalls (.shift r g b le), seq := ⟨s.seq.state, s.seq.k + 1⟩ } := by
  simp [pulse, setLine, emit, eventCalls]

/-- The serial lines after a run of cycles that began at levels `l`. -/
def linesAfter (l : Lines) (cycles : List Cycle) : Lines := cycles.foldl (fun _ c => ⟨false, c.le, c.r, c.g, c.b⟩) l

@[simp] theorem linesAfter_nil (l : Lines) : linesAfter l [] = l := rfl

@[simp] theorem linesAfter_append_singleton (l : Lines) (cycles : List Cycle) (c : Cycle) :
    linesAfter l (cycles ++ [c]) = ⟨false, c.le, c.r, c.g, c.b⟩ := by simp [linesAfter]

theorem foldl_pulse_eq (cycles : List Cycle) (s : State) :
    cycles.foldl (fun s c => pulse c.r c.g c.b c.le s) s =
      { s with lines := linesAfter s.lines cycles, trace := s.trace ++ cycles.map Cycle.event,
               pins := s.pins ++ (cycles.map Cycle.event).flatMap eventCalls, seq := ⟨s.seq.state, s.seq.k + cycles.length⟩ } := by
  induction cycles generalizing s with
  | nil => simp
  | cons c rest ih =>
    rw [List.foldl_cons, ih]
    simp [pulse_eq, linesAfter, Cycle.event]
    omega

/-- A burst, all of it (R88, R148). -/
theorem burst_eq (st : SeqState) (cycles : List Cycle) (s : State) :
    burst st cycles s =
      { s with lines := { linesAfter s.lines cycles with le := false }, trace := s.trace ++ cycles.map Cycle.event,
               pins := s.pins ++ burstCalls (cycles.map Cycle.event), seq := ⟨st, 0⟩ } := by
  simp only [burst, foldl_pulse_eq, enterState, endBurst, setLine, burstCalls, List.append_assoc]

/-! ## Memory spaces -/

@[simp] theorem readFb_writeFb (i j : Nat) (v : Color) (s : State) :
    readFb (writeFb i v s) j = if j = i then v else readFb s j := Mem.read_write ..

theorem readRb_writeRb {row slot row' slot' : Nat} (v : Word) (s : State) (hs : slot < s.conf.rowSlots)
    (hs' : slot' < s.conf.rowSlots) :
    readRb (writeRb row slot v s) row' slot' = if row' = row ∧ slot' = slot then v else readRb s row' slot' := by
  simp only [readRb, writeRb_conf, writeRb_rb]
  rw [Mem.read_write]
  by_cases h : row' = row ∧ slot' = slot
  · simp [h]
  · rw [if_neg h, if_neg fun ha => h (s.conf.rbAddr_injective hs' hs ha)]

@[simp] theorem readRb_clearRb (s : State) (row slot : Nat) : readRb (clearRb s) row slot = 0 := rfl

/-! ## Requests and errors -/

theorem takeRequest_nil {s : State} (h : s.inbox = []) : takeRequest s = none := by simp [takeRequest, h]

theorem takeRequest_cons {s : State} {r : Request} {rest : List Request} (h : s.inbox = r :: rest) :
    takeRequest s = some (r, { s with inbox := rest }) := by simp [takeRequest, h]

/-- A rejected request changes `STATUS` at most (R222). -/
theorem rejectRequest_eq (r : Request) (s : State) : ∃ st, rejectRequest r s = { s with status := st } := by
  cases r <;> exact ⟨_, rfl⟩

theorem tickAdmitted_iff (s : State) : tickAdmitted s = true ↔ s.tickEn = true ∧ s.seq = Seq.idle := by
  simp [tickAdmitted]

end Sys2Proof.Machine
end

