-- ==== Sys2Proof/Laws/Buffers.lean ====
section
/-! SUPPORT. What SET_COLOR_ALL and FLUSH do to the two buffers, element by element. -/

namespace Sys2Proof.Machine

open Sys2Proof.Safety

/-! ## FB -/

/-- The first `n` elements of `FB` set to one Color. -/
def fillMem (n : Nat) (v : Color) (m : Mem Color) : Mem Color := (List.range n).foldl (fun m i => Mem.write Color.black m i v) m

theorem fillMem_succ (n : Nat) (v : Color) (m : Mem Color) :
    fillMem (n + 1) v m = Mem.write Color.black (fillMem n v m) n v := by
  simp [fillMem, List.range_succ]

theorem read_fillMem (n : Nat) (v : Color) (m : Mem Color) (i : Nat) :
    Mem.read Color.black (fillMem n v m) i = if i < n then v else Mem.read Color.black m i := by
  induction n with
  | zero => simp [fillMem]
  | succ n ih =>
    rw [fillMem_succ, Mem.read_write, ih]
    by_cases h : i = n
    · simp [h]
    · by_cases h' : i < n
      · simp [h, h', show i < n + 1 by omega]
      · simp [h, h', show ¬ i < n + 1 by omega]

theorem wf_fillMem (n : Nat) (v : Color) {m : Mem Color} (hm : Mem.wf Color.black m = true) :
    Mem.wf Color.black (fillMem n v m) = true := by
  induction n with
  | zero => simpa [fillMem] using hm
  | succ n ih => rw [fillMem_succ]; exact Mem.wf_write _ _ ih

theorem inRange_fillMem {n size : Nat} (v : Color) {m : Mem Color} (h : n ≤ size) (hm : Mem.inRange size m = true) :
    Mem.inRange size (fillMem n v m) = true := by
  induction n with
  | zero => simpa [fillMem] using hm
  | succ n ih => rw [fillMem_succ]; exact Mem.inRange_write _ (by omega) (ih (by omega))

theorem foldl_writeFb_eq (n : Nat) (v : Color) (s : State) :
    (List.range n).foldl (fun s i => writeFb i v s) s = { s with fb := fillMem n v s.fb } := by
  induction n with
  | zero => simp [fillMem]
  | succ n ih => rw [List.range_succ, List.foldl_append, ih, fillMem_succ]; rfl

/-- SET_COLOR_ALL's loop, all of it (R123). -/
theorem fillFb_eq (v : Color) (s : State) : fillFb v s = { s with fb := fillMem s.conf.ledCount v s.fb } :=
  foldl_writeFb_eq ..

/-! ## Packed words -/

theorem getLsbD_placeBit (bit : Bool) (place j : Nat) (hj : j < 16) :
    (placeBit bit place).getLsbD j = (decide (j = place) && bit) := by
  simp only [placeBit, BitVec.getLsbD_shiftLeft, BitVec.getLsbD_setWidth, BitVec.getLsbD_ofBool, hj, decide_true, Bool.true_and]
  by_cases h : j = place
  · simp [h]
  · by_cases h' : j < place
    · simp [h, h']
    · simp [h, h', show ¬ j - place = 0 by omega]

/-- Bit `j` of a packed word (R86, R130). -/
theorem getLsbD_encWord (c : Config) (v : Color) (p j : Nat) (hj : j < 16) :
    (encWord c v p).getLsbD j =
      ((decide (j = c.rBit) && plane (gammaAt c v.r) p) || (decide (j = c.gBit) && plane (gammaAt c v.g) p) ||
        (decide (j = c.bBit) && plane (gammaAt c v.b) p)) := by
  simp only [encWord, BitVec.getLsbD_or, getLsbD_placeBit _ _ _ hj]

/-- The 13 other bits of a packed word are 0 (R86). -/
theorem onlyColourBits_encWord (c : Config) (v : Color) (p : Nat) : onlyColourBits c (encWord c v p) := by
  intro j hr hg hb
  by_cases hj : j < 16
  · simp [getLsbD_encWord c v p j hj, hr, hg, hb]
  · exact BitVec.getLsbD_of_ge _ _ (by omega)

theorem onlyColourBits_zero (c : Config) : onlyColourBits c 0 := fun j _ _ _ => by simp

/-! ## RB -/

/-- `RB` after the first `n` planes of one LED (R131, inner loop). -/
def writeLed (d : Device) (pos : Position) (color : Color) (n : Nat) (m : Mem Word) : Mem Word :=
  (List.range n).foldl
    (fun m p => Mem.write 0 m (rbAddr d.toConfig pos.row (slotOf d.toConfig pos.col p)) (encWord d.toConfig color p)) m

theorem writeLed_succ (d : Device) (pos : Position) (color : Color) (n : Nat) (m : Mem Word) :
    writeLed d pos color (n + 1) m =
      Mem.write 0 (writeLed d pos color n m) (rbAddr d.toConfig pos.row (slotOf d.toConfig pos.col n))
        (encWord d.toConfig color n) := by
  simp [writeLed, List.range_succ]

theorem foldl_writeRb_eq (n : Nat) (pos : Position) (color : Color) (s : State) :
    (List.range n).foldl
      (fun s p => writeRb pos.row (slotOf s.conf.toConfig pos.col p) (encWord s.conf.toConfig color p) s) s =
      { s with rb := writeLed s.conf pos color n s.rb } := by
  induction n with
  | zero => simp [writeLed]
  | succ n ih => rw [List.range_succ, List.foldl_append, ih, writeLed_succ]; rfl

/-- The slots of one LED written, all of it (R131). -/
theorem encodeLed_eq (i : Nat) (s : State) :
    encodeLed i s = { s with rb := writeLed s.conf (s.conf.posAt i) (readFb s i) 16 s.rb } :=
  foldl_writeRb_eq 16 _ _ s

/-- `RB` after the first `n` LEDs (R131, outer loop). -/
def writeFrame (d : Device) (fb : Mem Color) (n : Nat) (m : Mem Word) : Mem Word :=
  (List.range n).foldl (fun m i => writeLed d (d.posAt i) (Mem.read Color.black fb i) 16 m) m

theorem writeFrame_succ (d : Device) (fb : Mem Color) (n : Nat) (m : Mem Word) :
    writeFrame d fb (n + 1) m = writeLed d (d.posAt n) (Mem.read Color.black fb n) 16 (writeFrame d fb n m) := by
  simp [writeFrame, List.range_succ]

theorem foldl_encodeLed_eq (n : Nat) (s : State) :
    (List.range n).foldl (fun s i => encodeLed i s) s = { s with rb := writeFrame s.conf s.fb n s.rb } := by
  induction n with
  | zero => simp [writeFrame]
  | succ n ih => rw [List.range_succ, List.foldl_append, ih, writeFrame_succ]; simp [encodeLed_eq, readFb]

/-- FLUSH's loops over the LEDs, all of it (R131). -/
theorem encodeFrame_eq (s : State) : encodeFrame s = { s with rb := writeFrame s.conf s.fb s.conf.ledCount s.rb } :=
  foldl_encodeLed_eq ..

/-- FLUSH in its two cases (R131). -/
theorem execFlush_eq (s : State) :
    execFlush s = .next (if s.inited = false then raise .notInitialized 0 s else
      { s with rb := writeFrame s.conf s.fb s.conf.ledCount [], pendLeft := s.conf.rowCount, pending := true,
               seq := Seq.idle }) := by
  unfold execFlush
  split
  · rfl
  · simp only [encodeFrame_eq]; rfl

/-- A slot of `RB` after one LED was written: the LED's word in its own slots, the old word elsewhere. -/
theorem read_writeLed (d : Device) (pos : Position) (color : Color) {n : Nat} (hn : n ≤ 16) (m : Mem Word)
    (hpos : pos.col < d.channelsPerRow) {row col p : Nat} (hc : col < d.channelsPerRow) (hp : p < 16) :
    Mem.read 0 (writeLed d pos color n m) (rbAddr d.toConfig row (slotOf d.toConfig col p)) =
      if pos = ⟨row, col⟩ ∧ p < n then encWord d.toConfig color p
      else Mem.read 0 m (rbAddr d.toConfig row (slotOf d.toConfig col p)) := by
  induction n with
  | zero => simp [writeLed]
  | succ n ih =>
    rw [writeLed_succ, Mem.read_write, ih (by omega)]
    by_cases h : rbAddr d.toConfig row (slotOf d.toConfig col p) =
        rbAddr d.toConfig pos.row (slotOf d.toConfig pos.col n)
    · obtain ⟨h1, h2⟩ := d.rbAddr_injective (d.slotOf_lt hc hp) (d.slotOf_lt hpos (by omega)) h
      obtain ⟨h3, h4⟩ := d.slotOf_injective hp (by omega) h2
      obtain ⟨pr, pc⟩ := pos
      simp_all
    · rw [if_neg h]
      by_cases h' : pos = ⟨row, col⟩
      · have hne : p ≠ n := by rintro rfl; exact h (by simp [h'])
        simp only [h', true_and, show (p < n + 1) = (p < n) by simp; omega]
      · simp [h']

/-- A slot of `RB` that no LED maps to keeps its word. -/
theorem read_writeFrame_unmapped (d : Device) (fb : Mem Color) {n : Nat} (hn : n ≤ d.ledCount) (m : Mem Word)
    {row col p : Nat} (hc : col < d.channelsPerRow) (hp : p < 16) (hno : ∀ i < n, d.posAt i ≠ ⟨row, col⟩) :
    Mem.read 0 (writeFrame d fb n m) (rbAddr d.toConfig row (slotOf d.toConfig col p)) =
      Mem.read 0 m (rbAddr d.toConfig row (slotOf d.toConfig col p)) := by
  induction n with
  | zero => simp [writeFrame]
  | succ n ih =>
    rw [writeFrame_succ, read_writeLed d _ _ (Nat.le_refl 16) _ (d.posAt_inRange (by omega)).2 hc hp,
      if_neg fun h => hno n (by omega) h.1]
    exact ih (by omega) fun i hi => hno i (by omega)

/-- The slots of LED `i` hold its packed words (R138). -/
theorem read_writeFrame_mapped (d : Device) (fb : Mem Color) {n : Nat} (hn : n ≤ d.ledCount) (m : Mem Word)
    {i p : Nat} (hi : i < n) (hp : p < 16) :
    Mem.read 0 (writeFrame d fb n m) (rbAddr d.toConfig (d.posAt i).row (slotOf d.toConfig (d.posAt i).col p)) =
      encWord d.toConfig (Mem.read Color.black fb i) p := by
  induction n with
  | zero => omega
  | succ n ih =>
    rw [writeFrame_succ, read_writeLed d _ _ (Nat.le_refl 16) _ (d.posAt_inRange (by omega)).2
      (d.posAt_inRange (by omega)).2 hp]
    by_cases h : i = n
    · subst h; simp [hp]
    · rw [if_neg fun ha => h (d.posAt_injective (by omega) (by omega) ha.1).symm]
      exact ih (by omega) (by omega)

/-! ## Canonical form -/

theorem wf_writeLed (d : Device) (pos : Position) (color : Color) (n : Nat) {m : Mem Word} (hm : Mem.wf 0 m = true) :
    Mem.wf 0 (writeLed d pos color n m) = true := by
  induction n with
  | zero => simpa [writeLed] using hm
  | succ n ih => rw [writeLed_succ]; exact Mem.wf_write _ _ ih

theorem wf_writeFrame (d : Device) (fb : Mem Color) (n : Nat) {m : Mem Word} (hm : Mem.wf 0 m = true) :
    Mem.wf 0 (writeFrame d fb n m) = true := by
  induction n with
  | zero => simpa [writeFrame] using hm
  | succ n ih => rw [writeFrame_succ]; exact wf_writeLed _ _ _ _ ih

theorem inRange_writeLed (d : Device) (pos : Position) (color : Color) {n : Nat} (hn : n ≤ 16) {m : Mem Word}
    (hr : pos.row < d.rowCount) (hc : pos.col < d.channelsPerRow)
    (hm : Mem.inRange (d.rowCount * d.rowSlots) m = true) :
    Mem.inRange (d.rowCount * d.rowSlots) (writeLed d pos color n m) = true := by
  induction n with
  | zero => simpa [writeLed] using hm
  | succ n ih =>
    rw [writeLed_succ]
    exact Mem.inRange_write _ (d.rbAddr_lt hr (d.slotOf_lt hc (by omega))) (ih (by omega))

theorem inRange_writeFrame (d : Device) (fb : Mem Color) {n : Nat} (hn : n ≤ d.ledCount) {m : Mem Word}
    (hm : Mem.inRange (d.rowCount * d.rowSlots) m = true) :
    Mem.inRange (d.rowCount * d.rowSlots) (writeFrame d fb n m) = true := by
  induction n with
  | zero => simpa [writeFrame] using hm
  | succ n ih =>
    rw [writeFrame_succ]
    have hp := d.posAt_inRange (show n < d.ledCount by omega)
    exact inRange_writeLed _ _ _ (Nat.le_refl 16) hp.1 hp.2 (ih (by omega))

end Sys2Proof.Machine
end

