-- ==== Sys2Proof/Laws/Encoding.lean ====
section
/-! SUPPORT. The fields of the encoded words, and the operation codes' rows (R80, R81) in terms of the fields. -/

namespace Sys2Proof

/-! ## Fields of a command word (R80) -/

theorem getLsbD_commandWord (op : BitVec 8) (idx : BitVec 16) (r g b : BitVec 8) (k : Nat) :
    (commandWord op idx r g b).getLsbD k =
      if k < 8 then b.getLsbD k else if k < 16 then g.getLsbD (k - 8) else if k < 24 then r.getLsbD (k - 16)
      else if k < 40 then idx.getLsbD (k - 24) else op.getLsbD (k - 40) := by
  simp only [commandWord, BitVec.getLsbD_or, BitVec.getLsbD_shiftLeft, BitVec.getLsbD_setWidth]
  by_cases h1 : k < 8
  · simp [h1, show k < 48 by omega, show k < 40 by omega, show k < 24 by omega, show k < 16 by omega]
  have hb : b.getLsbD k = false := BitVec.getLsbD_of_ge _ _ (by omega)
  by_cases h2 : k < 16
  · simp [h1, h2, hb, show k < 48 by omega, show k < 40 by omega, show k < 24 by omega, show k - 8 < 48 by omega]
  have hg : g.getLsbD (k - 8) = false := BitVec.getLsbD_of_ge _ _ (by omega)
  by_cases h3 : k < 24
  · simp [h1, h2, h3, hb, hg, show k < 48 by omega, show k < 40 by omega, show k - 16 < 48 by omega]
  have hr : r.getLsbD (k - 16) = false := BitVec.getLsbD_of_ge _ _ (by omega)
  by_cases h4 : k < 40
  · simp [h1, h2, h3, h4, hb, hg, hr, show k < 48 by omega, show k - 24 < 48 by omega]
  have hi : idx.getLsbD (k - 24) = false := BitVec.getLsbD_of_ge _ _ (by omega)
  by_cases h5 : k < 48
  · simp [h1, h2, h3, h4, h5, hb, hg, hr, hi, show k - 40 < 48 by omega]
  · have ho : op.getLsbD (k - 40) = false := BitVec.getLsbD_of_ge _ _ (by omega)
    simp [h1, h2, h3, h4, h5, ho]

theorem op_commandWord (op : BitVec 8) (idx : BitVec 16) (r g b : BitVec 8) :
    CommandWord.op (commandWord op idx r g b) = op := by
  refine BitVec.eq_of_getLsbD_eq fun k hk => ?_
  simp [CommandWord.op, getLsbD_commandWord, hk, show ¬ 40 + k < 8 by omega, show ¬ 40 + k < 16 by omega,
    show ¬ 40 + k < 24 by omega]

theorem idx_commandWord (op : BitVec 8) (idx : BitVec 16) (r g b : BitVec 8) :
    CommandWord.idx (commandWord op idx r g b) = idx := by
  refine BitVec.eq_of_getLsbD_eq fun k hk => ?_
  simp [CommandWord.idx, getLsbD_commandWord, hk, show ¬ 24 + k < 8 by omega, show ¬ 24 + k < 16 by omega,
    show 24 + k < 40 by omega]

theorem r_commandWord (op : BitVec 8) (idx : BitVec 16) (r g b : BitVec 8) :
    CommandWord.r (commandWord op idx r g b) = r := by
  refine BitVec.eq_of_getLsbD_eq fun k hk => ?_
  simp [CommandWord.r, getLsbD_commandWord, hk, show ¬ 16 + k < 8 by omega, show 16 + k < 24 by omega]

theorem g_commandWord (op : BitVec 8) (idx : BitVec 16) (r g b : BitVec 8) :
    CommandWord.g (commandWord op idx r g b) = g := by
  refine BitVec.eq_of_getLsbD_eq fun k hk => ?_
  simp [CommandWord.g, getLsbD_commandWord, hk, show 8 + k < 16 by omega]

theorem b_commandWord (op : BitVec 8) (idx : BitVec 16) (r g b : BitVec 8) :
    CommandWord.b (commandWord op idx r g b) = b := by
  refine BitVec.eq_of_getLsbD_eq fun k hk => ?_
  simp [CommandWord.b, getLsbD_commandWord, hk]

/-- A command word is made of its five fields. -/
theorem commandWord_eta (w : CommandWord) :
    commandWord (CommandWord.op w) (CommandWord.idx w) (CommandWord.r w) (CommandWord.g w) (CommandWord.b w) = w := by
  refine BitVec.eq_of_getLsbD_eq fun k hk => ?_
  rw [getLsbD_commandWord]
  simp only [CommandWord.op, CommandWord.idx, CommandWord.r, CommandWord.g, CommandWord.b, BitVec.getLsbD_extractLsb']
  split
  · simp [*]
  split
  · simp [show 8 + (k - 8) = k by omega, show k - 8 < 8 by omega]
  split
  · simp [show 16 + (k - 16) = k by omega, show k - 16 < 8 by omega]
  split
  · simp [show 24 + (k - 24) = k by omega, show k - 24 < 16 by omega]
  · simp [show 40 + (k - 40) = k by omega, show k - 40 < 8 by omega]

/-- Command words are equal only if their fields are. -/
theorem commandWord_inj {op op' : BitVec 8} {idx idx' : BitVec 16} {r r' g g' b b' : BitVec 8} :
    commandWord op idx r g b = commandWord op' idx' r' g' b' ↔ op = op' ∧ idx = idx' ∧ r = r' ∧ g = g' ∧ b = b' := by
  refine ⟨fun h => ⟨?_, ?_, ?_, ?_, ?_⟩, by rintro ⟨rfl, rfl, rfl, rfl, rfl⟩; rfl⟩
  · simpa only [op_commandWord] using congrArg CommandWord.op h
  · simpa only [idx_commandWord] using congrArg CommandWord.idx h
  · simpa only [r_commandWord] using congrArg CommandWord.r h
  · simpa only [g_commandWord] using congrArg CommandWord.g h
  · simpa only [b_commandWord] using congrArg CommandWord.b h

/-- Masking acts field by field. -/
theorem commandWord_and (op op' : BitVec 8) (idx idx' : BitVec 16) (r r' g g' b b' : BitVec 8) :
    commandWord op idx r g b &&& commandWord op' idx' r' g' b' =
      commandWord (op &&& op') (idx &&& idx') (r &&& r') (g &&& g') (b &&& b') := by
  refine BitVec.eq_of_getLsbD_eq fun k _ => ?_
  simp only [BitVec.getLsbD_and, getLsbD_commandWord]
  repeat' split
  all_goals rfl

/-! ## Rows (R81) -/

theorem and_ones8 (x : BitVec 8) : x &&& 0xFF#8 = x := BitVec.and_allOnes (x := x)

theorem and_ones16 (x : BitVec 16) : x &&& 0xFFFF#16 = x := BitVec.and_allOnes (x := x)

/-- A row given by fields selects a word exactly if the word's masked fields are the row's. -/
theorem selects_mk (pop mop : BitVec 8) (pidx midx : BitVec 16) (pr mr pg mg pb mb : BitVec 8) (op : BitVec 8)
    (idx : BitVec 16) (r g b : BitVec 8) :
    CommandRow.selects ⟨commandWord pop pidx pr pg pb, commandWord mop midx mr mg mb⟩ (commandWord op idx r g b) =
      decide (op &&& mop = pop ∧ idx &&& midx = pidx ∧ r &&& mr = pr ∧ g &&& mg = pg ∧ b &&& mb = pb) := by
  simp only [CommandRow.selects, commandWord_and, commandWord_inj]

theorem selects_init (op : BitVec 8) (idx : BitVec 16) (r g b : BitVec 8) :
    CommandRow.init.selects (commandWord op idx r g b) = decide (op = 1 ∧ idx = 0 ∧ r = 0 ∧ g = 0 ∧ b = 0) := by
  rw [show CommandRow.init = ⟨commandWord 1 0 0 0 0, commandWord 0xFF#8 0xFFFF#16 0xFF#8 0xFF#8 0xFF#8⟩ by decide, selects_mk]
  simp [and_ones8, and_ones16]

theorem selects_flush (op : BitVec 8) (idx : BitVec 16) (r g b : BitVec 8) :
    CommandRow.flush.selects (commandWord op idx r g b) = decide (op = 2 ∧ idx = 0 ∧ r = 0 ∧ g = 0 ∧ b = 0) := by
  rw [show CommandRow.flush = ⟨commandWord 2 0 0 0 0, commandWord 0xFF#8 0xFFFF#16 0xFF#8 0xFF#8 0xFF#8⟩ by decide, selects_mk]
  simp [and_ones8, and_ones16]

theorem selects_setColor (op : BitVec 8) (idx : BitVec 16) (r g b : BitVec 8) :
    CommandRow.setColor.selects (commandWord op idx r g b) = decide (op = 3) := by
  rw [show CommandRow.setColor = ⟨commandWord 3 0 0 0 0, commandWord 0xFF#8 0 0 0 0⟩ by decide, selects_mk]
  simp [and_ones8]

theorem selects_setColorAll (op : BitVec 8) (idx : BitVec 16) (r g b : BitVec 8) :
    CommandRow.setColorAll.selects (commandWord op idx r g b) = decide (op = 4 ∧ idx = 0) := by
  rw [show CommandRow.setColorAll = ⟨commandWord 4 0 0 0 0, commandWord 0xFF#8 0xFFFF#16 0 0 0⟩ by decide, selects_mk]
  simp [and_ones8, and_ones16]

theorem selects_wrcfg (op : BitVec 8) (idx : BitVec 16) (r g b : BitVec 8) :
    CommandRow.wrcfg.selects (commandWord op idx r g b) = decide (op = 5 ∧ idx = 0 ∧ r = 0 ∧ g = 0) := by
  rw [show CommandRow.wrcfg = ⟨commandWord 5 0 0 0 0, commandWord 0xFF#8 0xFFFF#16 0xFF#8 0xFF#8 0⟩ by decide, selects_mk]
  simp [and_ones8, and_ones16]

/-- What a command word decodes to, by its fields (R81, R82, R83). -/
theorem decodeCommand_commandWord (op : BitVec 8) (idx : BitVec 16) (r g b : BitVec 8) :
    decodeCommand (commandWord op idx r g b) =
      if op = 1 ∧ idx = 0 ∧ r = 0 ∧ g = 0 ∧ b = 0 then .ok .init
      else if op = 2 ∧ idx = 0 ∧ r = 0 ∧ g = 0 ∧ b = 0 then .ok .flush
      else if op = 3 then .ok (.setColor idx r g b)
      else if op = 4 ∧ idx = 0 then .ok (.setColorAll r g b)
      else if op = 5 ∧ idx = 0 ∧ r = 0 ∧ g = 0 then .ok (.wrcfg b)
      else .error (rejectCommand (commandWord op idx r g b)) := by
  simp only [decodeCommand, selects_init, selects_flush, selects_setColor, selects_setColorAll, selects_wrcfg,
    idx_commandWord, r_commandWord, g_commandWord, b_commandWord, decide_eq_true_eq]

/-! ## The Encoder's input word -/

theorem getLsbD_encoderWord (r g b : Intensity) (p : BitVec 4) (k : Nat) :
    (encoderWord r g b p).getLsbD k =
      if k < 4 then p.getLsbD k else if k < 12 then b.getLsbD (k - 4) else if k < 20 then g.getLsbD (k - 12)
      else r.getLsbD (k - 20) := by
  simp only [encoderWord, BitVec.getLsbD_or, BitVec.getLsbD_shiftLeft, BitVec.getLsbD_setWidth]
  by_cases h1 : k < 4
  · simp [h1, show k < 28 by omega, show k < 20 by omega, show k < 12 by omega]
  have hp : p.getLsbD k = false := BitVec.getLsbD_of_ge _ _ (by omega)
  by_cases h2 : k < 12
  · simp [h1, h2, hp, show k < 28 by omega, show k < 20 by omega, show k - 4 < 28 by omega]
  have hb : b.getLsbD (k - 4) = false := BitVec.getLsbD_of_ge _ _ (by omega)
  by_cases h3 : k < 20
  · simp [h1, h2, h3, hp, hb, show k < 28 by omega, show k - 12 < 28 by omega]
  have hg : g.getLsbD (k - 12) = false := BitVec.getLsbD_of_ge _ _ (by omega)
  by_cases h4 : k < 28
  · simp [h1, h2, h3, h4, hp, hb, hg, show k - 20 < 28 by omega]
  · have hr : r.getLsbD (k - 20) = false := BitVec.getLsbD_of_ge _ _ (by omega)
    simp [h1, h2, h3, h4, hr]

end Sys2Proof
end

