-- ==== Sys2Proof/Laws/PerInstr.lean ====
section
/-! SUPPORT. Statements made per instruction. `Port`: an operation arrives on the outside ports exactly if the outside world can
start it (R206). -/

namespace Sys2Proof.Laws.Port

def Statement (i : Instr) : Prop := (encode i).external = i.external

theorem init : Statement .init := rfl

theorem flush : Statement .flush := rfl

theorem setColor (index : BitVec 16) (r g b : Intensity) : Statement (.setColor index r g b) := rfl

theorem setColorAll (r g b : Intensity) : Statement (.setColorAll r g b) := rfl

theorem wrcfg (gain8 : BitVec 8) : Statement (.wrcfg gain8) := rfl

theorem tick : Statement .tick := rfl

theorem lookup (v : Intensity) : Statement (.lookup v) := rfl

theorem enc (r g b : Intensity) (p : BitVec 4) : Statement (.enc r g b p) := rfl

theorem pulse (r g b le : Bool) : Statement (.pulse r g b le) := rfl

theorem rowTransfer (row : Nat) : Statement (.rowTransfer row) := rfl

theorem globalLatch : Statement .globalLatch := rfl

theorem pwmReset : Statement .pwmReset := rfl

theorem configWrite (gain : BitVec 8) : Statement (.configWrite gain) := rfl

end Sys2Proof.Laws.Port
end

