-- ==== Sys2Proof/Laws/Serial.lean ====
section
/-! SUPPORT. The serial sequences, a tick, INIT and WRCFG in closed form. -/

namespace Sys2Proof.Machine

open Sys2Proof.Safety

/-! ## Cycles -/

@[simp] theorem length_blankCycles (n first : Nat) : (blankCycles n first).length = n := by simp [blankCycles]

/-- Cycle `k` of a burst without data. -/
theorem getElem_blankCycles {n first k : Nat} (h : k < n) :
    (blankCycles n first)[k]? = some (Cycle.blank (decide (first ≤ k))) := by
  simp [blankCycles, h]

theorem blankCycles_succ (n first : Nat) :
    blankCycles (n + 1) first = blankCycles n first ++ [Cycle.blank (decide (first ≤ n))] := by
  simp [blankCycles, List.range_succ]

theorem linesAfter_blankCycles (l : Lines) {n : Nat} (first : Nat) (h : 0 < n) :
    { linesAfter l (blankCycles n first) with le := false } = (⟨false, false, false, false, false⟩ : Lines) := by
  obtain ⟨m, rfl⟩ : ∃ m, n = m + 1 := ⟨n - 1, by omega⟩
  rw [blankCycles_succ, linesAfter_append_singleton]
  rfl

@[simp] theorem length_configDataCycles (c : Config) (v : Word) : (configDataCycles c v).length = 16 := by
  simp [configDataCycles]

theorem getElem_configDataCycles (c : Config) (v : Word) {k : Nat} (h : k < 16) :
    (configDataCycles c v)[k]? = some ⟨v.getLsbD (15 - k), v.getLsbD (15 - k), v.getLsbD (15 - k), decide (5 ≤ k)⟩ := by
  simp [configDataCycles, plane, h]

theorem linesAfter_configDataCycles (l : Lines) (c : Config) (v : Word) :
    { linesAfter l (configDataCycles c v) with le := false } =
      (⟨false, false, v.getLsbD 0, v.getLsbD 0, v.getLsbD 0⟩ : Lines) := by
  rw [show configDataCycles c v = (List.range 15).map (fun k => (⟨plane v k, plane v k, plane v k, decide (5 ≤ k)⟩ : Cycle)) ++
    [⟨plane v 15, plane v 15, plane v 15, decide (5 ≤ 15)⟩] by simp [configDataCycles, List.range_succ],
    linesAfter_append_singleton]
  rfl

@[simp] theorem length_rowCycles (s : State) (row : Nat) : (rowCycles s row).length = s.conf.channelsPerRow * 16 := by
  simp [rowCycles, List.length_flatMap]

/-- A row transfer reads the configuration and `RB` only. -/
theorem rowCycles_congr {s t : State} (hc : s.conf = t.conf) (hr : s.rb = t.rb) (row : Nat) :
    rowCycles s row = rowCycles t row := by
  simp only [rowCycles, rowCycle, readRb, hc, hr]

theorem getElem_flatMap_range (f : Nat → Nat → Cycle) (cols : List Nat) {k : Nat} (h : k < cols.length * 16) :
    (cols.flatMap fun c => (List.range 16).map (f c))[k]? = (cols[k / 16]?).map fun c => f c (k % 16) := by
  induction cols generalizing k with
  | nil => simp at h
  | cons c rest ih =>
    rw [List.flatMap_cons]
    by_cases hk : k < 16
    · rw [List.getElem?_append_left (by simpa using hk)]
      simp [hk, Nat.div_eq_of_lt hk, Nat.mod_eq_of_lt hk]
    · rw [List.getElem?_append_right (by simpa using Nat.le_of_not_lt hk)]
      simp only [List.length_map, List.length_range]
      rw [ih (by simp at h ⊢; omega)]
      obtain ⟨m, rfl⟩ : ∃ m, k = m + 16 := ⟨k - 16, by omega⟩
      simp [Nat.add_div_right]

/-- Cycle `k` of a row transfer: column `CHANNELS_PER_ROW − 1 − (k / 16)`, plane `k mod 16` (R30, R89). -/
theorem getElem_rowCycles (s : State) (row : Nat) {k : Nat} (h : k < s.conf.channelsPerRow * 16) :
    (rowCycles s row)[k]? = some (rowCycle s row (s.conf.channelsPerRow - 1 - k / 16) (k % 16)) := by
  have hk : k / 16 < s.conf.channelsPerRow := by omega
  unfold rowCycles
  rw [show s.conf.bitsPerChannel = 16 from rfl,
    getElem_flatMap_range (rowCycle s row) _ (by simpa using h)]
  rw [List.getElem?_reverse (by simpa using hk)]
  rw [List.length_range, List.getElem?_range (by omega)]
  rfl

theorem rowCycles_last (s : State) (row : Nat) :
    ∃ before, rowCycles s row = before ++ [rowCycle s row 0 15] := by
  obtain ⟨n, hn⟩ : ∃ n, s.conf.channelsPerRow = n + 1 := ⟨s.conf.channelsPerRow - 1, by have := s.conf.channels_pos; omega⟩
  refine ⟨(((List.range n).map Nat.succ).reverse.flatMap fun col => (List.range 16).map fun p => rowCycle s row col p) ++
    (List.range 15).map fun p => rowCycle s row 0 p, ?_⟩
  simp [rowCycles, hn, List.range_succ_eq_map (n := n), List.flatMap_append, List.range_succ (n := 15)]

/-- The data lines after a row transfer: the bits of its last cycle. -/
theorem linesAfter_rowCycles (l : Lines) (s : State) (row : Nat) :
    { linesAfter l (rowCycles s row) with le := false } =
      (⟨false, false, (rowCycle s row 0 15).r, (rowCycle s row 0 15).g, (rowCycle s row 0 15).b⟩ : Lines) := by
  obtain ⟨before, hb⟩ := rowCycles_last s row
  rw [hb, linesAfter_append_singleton]

/-! ## Wire formats -/

/-- The cycles of a burst without data are its wire format. -/
theorem map_event_blankCycles (n first : Nat) : (blankCycles n first).map Cycle.event = wireBlank n first := by
  simp [blankCycles, wireBlank, Cycle.event, Cycle.blank]

/-- The cycles of the configuration data burst are its wire format. -/
theorem map_event_configDataCycles (c : Config) (v : Word) :
    (configDataCycles c v).map Cycle.event = wireConfigData v := by
  simp [configDataCycles, wireConfigData, Cycle.event, plane]

/-- The cycles of a row transfer are its wire format, cycle by cycle. -/
theorem map_event_rowCycles (s : State) (row : Nat) : (rowCycles s row).map Cycle.event = wireRow s row := by
  refine List.ext_getElem? fun k => ?_
  by_cases h : k < s.conf.channelsPerRow * 16
  · rw [List.getElem?_map, getElem_rowCycles s row h]
    have hle : (s.conf.channelsPerRow - 1 - k / 16 = 0 ∧ k % 16 + 1 = 16) ↔ k + 1 = s.conf.channelsPerRow * 16 := by omega
    simp only [wireRow, List.getElem?_map, List.getElem?_range h, Option.map_some, rowCycle, Cycle.event, slotOf,
      Config.bitsPerChannel, hle]
  · have h' := Nat.le_of_not_lt h
    rw [List.getElem?_eq_none (by simpa using h'), List.getElem?_eq_none (by simpa [wireRow] using h')]

/-- A row transfer's wire format depends on the configuration and `RB` only. -/
theorem wireRow_congr {s t : State} (hc : s.conf = t.conf) (hr : s.rb = t.rb) (row : Nat) : wireRow s row = wireRow t row := by
  simp only [wireRow, readRb, hc, hr]

/-! ## Sequences -/

/-- ROW_TRANSFER, all of it (R150). -/
theorem transferRow_eq (row : Nat) (s : State) :
    transferRow row s =
      { s with lines := ⟨false, false, (rowCycle s row 0 15).r, (rowCycle s row 0 15).g, (rowCycle s row 0 15).b⟩,
               trace := s.trace ++ wireRow s row,
               pins := s.pins ++ burstCalls (wireRow s row), seq := ⟨.transferRow, 0⟩ } := by
  rw [transferRow, burst_eq, linesAfter_rowCycles, map_event_rowCycles]

/-- GLOBAL_LATCH, all of it (R155). -/
theorem globalLatch_eq (s : State) :
    globalLatch s =
      { s with lines := ⟨false, false, false, false, false⟩,
               trace := s.trace ++ wireBlank 16 s.conf.glLatchFrom,
               pins := s.pins ++ burstCalls (wireBlank 16 s.conf.glLatchFrom), seq := ⟨.globalLatch, 0⟩ } := by
  rw [globalLatch, burst_eq, linesAfter_blankCycles _ _ (by simp), map_event_blankCycles]

/-- PWM_RESET, all of it (R157). -/
theorem pwmReset_eq (s : State) :
    pwmReset s =
      { s with lines := ⟨false, false, false, false, false⟩,
               trace := s.trace ++ wireBlank (3 + s.conf.rstHighCycles) 3,
               pins := s.pins ++ burstCalls (wireBlank (3 + s.conf.rstHighCycles) 3), seq := ⟨.resetCounter, 0⟩ } := by
  rw [pwmReset, burst_eq, linesAfter_blankCycles _ _ (by simp), map_event_blankCycles]

/-- The events of a configuration write of the register value `v` (R92, R93). -/
def configEvents (v : Word) : List Event :=
  wireBlank 15 2 ++ wireConfigData v

/-- The calls of the same (R147). -/
def configCalls (v : Word) : List PinWrite := burstCalls (wireBlank 15 2) ++ burstCalls (wireConfigData v)

/-- CONFIG_WRITE, all of it (R160). -/
theorem configWrite_eq (gain : BitVec 8) (s : State) :
    configWrite gain s =
      { s with cfg := configValue s.conf.configDefaultBase gain,
               lines := ⟨false, false, (configValue s.conf.configDefaultBase gain).getLsbD 0,
                 (configValue s.conf.configDefaultBase gain).getLsbD 0,
                 (configValue s.conf.configDefaultBase gain).getLsbD 0⟩,
               trace := s.trace ++ configEvents (configValue s.conf.configDefaultBase gain),
               pins := s.pins ++ configCalls (configValue s.conf.configDefaultBase gain),
               seq := ⟨.cfgData, 0⟩ } := by
  simp only [configWrite, burst_eq, linesAfter_configDataCycles, map_event_blankCycles, map_event_configDataCycles,
    configEvents, configCalls, List.append_assoc]

/-! ## A tick -/

/-- The events of an admitted tick, in order (R177). -/
def refreshEvents (s : State) : List Event :=
  rowsOffEvents s.conf.toConfig ++ wireRow s s.rowIdx ++
    wireBlank 16 s.conf.glLatchFrom ++
    wireBlank (3 + s.conf.rstHighCycles) 3 ++ [.row s.rowIdx true]

/-- The calls of the same (R147). -/
def refreshCalls (s : State) : List PinWrite :=
  rowsOffCalls s.conf.toConfig ++ burstCalls (wireRow s s.rowIdx) ++ burstCalls (wireBlank 16 s.conf.glLatchFrom) ++
    burstCalls (wireBlank (3 + s.conf.rstHighCycles) 3) ++ [⟨.rowEn s.rowIdx, true⟩]

/-- An admitted tick, all of it (R177). -/
theorem refresh_eq (s : State) :
    refresh s =
      { s with rowEn := Mem.write false (rowsOff s.conf.rowCount s.rowEn) s.rowIdx true,
               lines := ⟨false, false, false, false, false⟩,
               trace := s.trace ++ refreshEvents s, pins := s.pins ++ refreshCalls s,
               rowIdx := nextRow s.conf.toConfig s.rowIdx,
               pendLeft := if s.pending then s.pendLeft - 1 else s.pendLeft,
               pending := if s.pending ∧ s.pendLeft - 1 = 0 then false else s.pending,
               seq := Seq.idle } := by
  unfold refresh
  simp only [allRowsOff_eq, transferRow_eq, globalLatch_eq, pwmReset_eq, tickEntry, enterState]
  cases hp : s.pending <;>
    simp [selectNextRow, enterState, setRow_eq, countTransferredRow, returnToIdle, refreshEvents, refreshCalls,
      show ∀ (t : State), t.conf = s.conf → t.rb = s.rb → wireRow t s.rowIdx = wireRow s s.rowIdx from
        fun t h1 h2 => wireRow_congr h1 h2 _]

/-- TICK in its two cases (R175, R177). -/
theorem execTick_eq (s : State) :
    execTick s = .next (if s.tickEn = true ∧ s.seq = Seq.idle then refresh s else s) := by
  unfold execTick
  by_cases h : tickAdmitted s = true
  · rw [if_pos h, if_pos ((tickAdmitted_iff s).1 h)]
  · rw [if_neg h, if_neg (mt (tickAdmitted_iff s).2 h)]

/-! ## INIT -/

/-- A first INIT, all of it (R201). -/
theorem startUp_eq (s : State) :
    startUp s =
      { s with rowEn := rowsOff s.conf.rowCount s.rowEn, rb := [], rowIdx := 0, pending := false, pendLeft := 0,
               cfg := configValue s.conf.configDefaultBase s.conf.defaultGain,
               lines := ⟨false, false, (configValue s.conf.configDefaultBase s.conf.defaultGain).getLsbD 0,
                 (configValue s.conf.configDefaultBase s.conf.defaultGain).getLsbD 0,
                 (configValue s.conf.configDefaultBase s.conf.defaultGain).getLsbD 0⟩,
               trace := s.trace ++ rowsOffEvents s.conf.toConfig ++
                 configEvents (configValue s.conf.configDefaultBase s.conf.defaultGain),
               pins := s.pins ++ [⟨.clk, false⟩, ⟨.le, false⟩, ⟨.dr, false⟩, ⟨.dg, false⟩, ⟨.db, false⟩] ++
                 rowsOffCalls s.conf.toConfig ++
                 configCalls (configValue s.conf.configDefaultBase s.conf.defaultGain),
               seq := Seq.idle, inited := true, tickEn := true } := by
  simp only [startUp, idleLines_eq, allRowsOff_eq, clearRb, clearPending, configWrite_eq, returnToIdle]

/-- INIT in its two cases (R201, R221). -/
theorem execInit_eq (s : State) :
    execInit s = .next (if s.inited = true then raise .alreadyInitialized 0 s else startUp s) := by
  unfold execInit; split <;> rfl

/-- WRCFG in its two cases (R205, R220). -/
theorem execWrcfg_eq (gain8 : BitVec 8) (s : State) :
    execWrcfg gain8 s = .next (if s.inited = false then raise .notInitialized 0 s else
      returnToIdle (configWrite gain8 s)) := by
  unfold execWrcfg; split <;> rfl

end Sys2Proof.Machine
end

