-- ==== Sys2Proof/Laws/Step.lean ====
section
/-! SUPPORT. What one step and a run of steps can do, and the events of a tick. -/

namespace Sys2Proof.Machine

open Sys2Proof.Safety

/-! ## One step -/

theorem step_nil {s : State} (h : s.inbox = []) : step s = .next s := by
  unfold step; rw [takeRequest_nil h]

theorem step_cons {s : State} {r : Request} {rest : List Request} (h : s.inbox = r :: rest) :
    step s = match decode r with
      | .ok i => exec i { s with inbox := rest }
      | .error _ => .next (rejectRequest r { s with inbox := rest }) := by
  cases hd : decode r <;> simp only [step, takeRequest_cons h, hd]

/-- Everything a step that goes on can have done: nothing (no request), the operation its request decodes to, or
`ILLEGAL_COMMAND` (R60, R222, R256). -/
theorem step_cases {s t : State} (h : step s = .next t) :
    t = s ∨ ∃ r rest, s.inbox = r :: rest ∧
      ((∃ i, decode r = .ok i ∧ exec i { s with inbox := rest } = .next t) ∨
        ∃ w, r = .command w ∧ t = { s with inbox := rest, status := ⟨true, 4, CommandWord.illegalInfo w⟩ }) := by
  cases hb : s.inbox with
  | nil => rw [step_nil hb] at h; cases h; exact .inl rfl
  | cons r rest =>
    refine .inr ⟨r, rest, rfl, ?_⟩
    rw [step_cons hb] at h
    cases hd : decode r with
    | ok i => rw [hd] at h; exact .inl ⟨i, rfl, h⟩
    | error e =>
      rw [hd] at h; simp only at h; cases h
      cases r <;> simp [decode] at hd
      exact .inr ⟨_, rfl, rfl⟩

/-- A command word decodes to one of the five host commands (R81). -/
theorem decodeCommand_external {w : CommandWord} {i : Instr} (h : decodeCommand w = .ok i) : i.external = true ∧ i ≠ .tick := by
  unfold decodeCommand at h
  repeat' split at h
  all_goals cases h
  all_goals exact ⟨rfl, by simp⟩

/-- What a host command or the timer's request decodes to is one of their operations (R206). -/
theorem decode_external {r : Request} {i : Instr} (hr : r.external = true) (h : decode r = .ok i) : i.external = true := by
  cases r <;> simp [Request.external] at hr
  · exact (decodeCommand_external h).1
  · cases h; rfl

/-! ## Runs -/

theorem run_next {s s' : State} (h : step s = .next s') (n : Nat) :
    Host.Core.run Sys2Proof.core (n + 1) s = Host.Core.run Sys2Proof.core n s' := by
  have h' : Sys2Proof.core.step s = .next s' := h
  simp only [Host.Core.run]
  split
  · next heq => rw [h'] at heq; cases heq; rfl
  · next heq => rw [h'] at heq; cases heq
  · next heq => rw [h'] at heq; cases heq

theorem run_append (n m : Nat) (s t : State) (h : Host.Core.run Sys2Proof.core n s = .next t) :
    Host.Core.run Sys2Proof.core (n + m) s = Host.Core.run Sys2Proof.core m t := by
  induction n generalizing s with
  | zero => simp only [Host.Core.run] at h; cases h; simp
  | succ n ih =>
    rw [show n + 1 + m = (n + m) + 1 by omega]
    simp only [Host.Core.run] at h ⊢
    split at h
    · exact ih _ h
    · cases h
    · cases h

/-! ## Ticks -/

/-- The events a tick adds (R175, R177). -/
theorem tickEvents_eq (s : State) : tickEvents s = if s.tickEn = true ∧ s.seq = Seq.idle then refreshEvents s else [] := by
  unfold tickEvents
  simp only [exec, execTick_eq]
  split <;> simp [refresh_eq]

/-- They depend on the configuration, `RB` and `ROWIDX` only. -/
theorem refreshEvents_congr {s t : State} (h1 : s.conf = t.conf) (h2 : s.rb = t.rb) (h3 : s.rowIdx = t.rowIdx) :
    refreshEvents s = refreshEvents t := by
  simp only [refreshEvents, h1, h3, wireRow_congr h1 h2]

/-! ## FLUSH -/

/-- The frame `FLUSH` writes depends on the Colors of the LEDs only. -/
theorem writeFrame_congr (d : Device) (fb fb' : Mem Color) (n : Nat) (m : Mem Word)
    (h : ∀ i < n, Mem.read Color.black fb i = Mem.read Color.black fb' i) : writeFrame d fb n m = writeFrame d fb' n m := by
  induction n with
  | zero => rfl
  | succ n ih => rw [writeFrame_succ, writeFrame_succ, ih fun i hi => h i (by omega), h n (by omega)]

/-- Frames of the memory facts: what keeps the configuration and the three memories keeps their canonical form. -/
theorem memoryOk_congr {s t : State} (h : MemoryOk s) (h1 : t.conf = s.conf) (h2 : t.fb = s.fb) (h3 : t.rb = s.rb)
    (h4 : t.rowEn = s.rowEn) : MemoryOk t := by
  obtain ⟨a, b, c, d, e, f⟩ := h
  constructor <;> simp only [h1, h2, h3, h4] <;> assumption

theorem memoryOk_resetWith (d : Device) (u : PowerOn) : MemoryOk (State.resetWith d u) :=
  ⟨Mem.wf_ofFn .., Mem.inRange_ofFn .., Mem.wf_ofFn .., Mem.inRange_ofFn .., Mem.wf_ofFn .., Mem.inRange_ofFn ..⟩

end Sys2Proof.Machine
end

