-- ==== Sys2Proof/Laws/Traces.lean ====
section
/-! SUPPORT. What the chain samples from the calls of each piece of a sequence (R147). -/

namespace Sys2Proof.Machine

open Sys2Proof.Safety

/-- Whatever the levels before them, the calls `ps` are sampled as the events `es`, and what follows is sampled from the levels
they leave. -/
def Samples (ps : List PinWrite) (es : List Event) : Prop :=
  ∀ l : Lines, ∃ l', ∀ rest, sampleFrom l (ps ++ rest) = es ++ sampleFrom l' rest

theorem samples_nil : Samples [] [] := fun l => ⟨l, fun _ => rfl⟩

theorem samples_append {ps qs : List PinWrite} {es fs : List Event} (h1 : Samples ps es) (h2 : Samples qs fs) :
    Samples (ps ++ qs) (es ++ fs) := by
  intro l
  obtain ⟨l1, a⟩ := h1 l
  obtain ⟨l2, b⟩ := h2 l1
  exact ⟨l2, fun rest => by rw [List.append_assoc, a, b, List.append_assoc]⟩

/-- The calls of an event are sampled as that event. -/
theorem samples_event (e : Event) : Samples (eventCalls e) [e] := by
  intro _
  cases e with
  | shift r g b le => exact ⟨_, fun _ => rfl⟩
  | row q v => exact ⟨_, fun _ => rfl⟩

theorem samples_events (es : List Event) : Samples (es.flatMap eventCalls) es := by
  induction es with
  | nil => exact samples_nil
  | cons e es ih => simpa using samples_append (samples_event e) ih

/-- The calls of a burst are sampled as its cycles; the epilogue is dropped. -/
theorem samples_burst (es : List Event) : Samples (burstCalls es) es := by
  have h : Samples [⟨.le, false⟩] [] := fun _ => ⟨_, fun _ => rfl⟩
  simpa [burstCalls] using samples_append (samples_events es) h

theorem samples_rowsOff (c : Config) : Samples (rowsOffCalls c) (rowsOffEvents c) := by
  have e : (rowsOffEvents c).flatMap eventCalls = rowsOffCalls c := by
    unfold rowsOffEvents rowsOffCalls
    generalize List.range c.rowCount = l
    induction l with
    | nil => rfl
    | cons a l ih => simpa [eventCalls] using ih
  have h := samples_events (rowsOffEvents c)
  rwa [e] at h

/-- The idle levels of INIT are sampled as nothing. -/
theorem samples_idle : Samples [⟨.clk, false⟩, ⟨.le, false⟩, ⟨.dr, false⟩, ⟨.dg, false⟩, ⟨.db, false⟩] [] :=
  fun _ => ⟨_, fun _ => rfl⟩

theorem samples_config (v : Word) : Samples (configCalls v) (configEvents v) :=
  samples_append (samples_burst _) (samples_burst _)

theorem samples_refresh (s : State) : Samples (refreshCalls s) (refreshEvents s) :=
  samples_append (samples_append (samples_append (samples_append (samples_rowsOff _) (samples_burst _)) (samples_burst _))
    (samples_burst _)) (samples_event (.row s.rowIdx true))

/-- Sampling goes through a list of calls piece by piece. -/
theorem sampleFrom_append (ps : List PinWrite) (l : Lines) :
    ∃ l', ∀ rest, sampleFrom l (ps ++ rest) = sampleFrom l ps ++ sampleFrom l' rest := by
  induction ps generalizing l with
  | nil => exact ⟨l, fun _ => rfl⟩
  | cons p ps ih =>
    obtain ⟨line, v⟩ := p
    cases line with
    | clk => obtain ⟨l', h⟩ := ih l; exact ⟨l', fun rest => by cases v <;> simp [sampleFrom, h]⟩
    | le => obtain ⟨l', h⟩ := ih { l with le := v }; exact ⟨l', fun rest => by simp [sampleFrom, h]⟩
    | dr => obtain ⟨l', h⟩ := ih { l with dr := v }; exact ⟨l', fun rest => by simp [sampleFrom, h]⟩
    | dg => obtain ⟨l', h⟩ := ih { l with dg := v }; exact ⟨l', fun rest => by simp [sampleFrom, h]⟩
    | db => obtain ⟨l', h⟩ := ih { l with db := v }; exact ⟨l', fun rest => by simp [sampleFrom, h]⟩
    | rowEn q => obtain ⟨l', h⟩ := ih l; exact ⟨l', fun rest => by simp [sampleFrom, h]⟩

/-- A state whose traces agree goes on agreeing when it appends calls and the events they are sampled as. -/
theorem tracesAgree_append {s t : State} {es : List Event} {ps : List PinWrite} (ha : TracesAgree s)
    (ht : t.trace = s.trace ++ es) (hp : t.pins = s.pins ++ ps) (hs : Samples ps es) : TracesAgree t := by
  intro l
  obtain ⟨l1, e1⟩ := sampleFrom_append s.pins l
  obtain ⟨l2, e2⟩ := hs l1
  have h := e2 []
  simp only [List.append_nil, sampleFrom] at h
  rw [ht, hp, e1, ha l, h]

end Sys2Proof.Machine
end

