-- ==== Sys2Proof/Tests/Slice0.lean ====
section
/-! SUPPORT. The model's own tests. Expected results are copied from the spec: words from R80, R81 and 95_test_vectors.md V11,
effects from its vectors V1 to V12 (named in each test); then, for every statement with hypotheses, a witness that meets them. -/

namespace Sys2Proof.Tests

open Sys2Proof.Machine Sys2Proof.Safety

/-! ## Helpers -/

/-- The state a step goes on with. -/
def nextOf : Host.Outcome State Fault Refusal → Option State
  | .next s => some s
  | .fault _ => none
  | .refused _ => none

theorem goesOn {o : Host.Outcome State Fault Refusal} (h : (nextOf o).isSome = true) : ∃ t, o = .next t := by
  cases o <;> simp [nextOf] at h
  exact ⟨_, rfl⟩

/-- An initialised idle core with the test configuration (95_test_vectors.md part 3), all else as in `State.reset`. -/
def ready : State := { State.reset with inited := true, tickEn := true, cfg := 0x8601 }

/-- One step with a command word on the port, seen through `f`. -/
def command {α : Type} (w : CommandWord) (s : State) (f : State → α) : Option α := (nextOf (step (load [.command w] s))).map f

/-- One operation, seen through `f`. -/
def run {α : Type} (i : Instr) (s : State) (f : State → α) : Option α := (nextOf (exec i s)).map f

/-- A burst of `n` cycles from its four strings, first cycle leftmost. -/
def shifts (n r g b le : Nat) : List Event :=
  (List.range n).map fun k => .shift (r.testBit (n - 1 - k)) (g.testBit (n - 1 - k)) (b.testBit (n - 1 - k)) (le.testBit (n - 1 - k))

/-- Put the 16 packed words of one column into `RB`. -/
def withColumn (row col : Nat) (words : List Word) (s : State) : State :=
  words.zipIdx.foldl (fun s e => writeRb row (col * 16 + e.2) e.1 s) s

/-- The 16 packed words of one column. -/
def column (row col : Nat) (s : State) : List Word := (List.range 16).map fun p => readRb s row (col * 16 + p)

/-- The packed words of Color `(1, 255, 16)` (V4.4). -/
def words44 : List Word := [0, 0, 2, 2, 2, 6, 2, 2, 2, 3, 2, 2, 2, 2, 6, 6]

/-- The three row events a tick begins with, for three rows. -/
def rowsOffEvents3 : List Event := [.row 0 false, .row 1 false, .row 2 false]

/-- `STATUS` as the vectors write it. -/
def statusOf (s : State) : Bool × BitVec 4 × BitVec 16 := (s.status.err, s.status.code, s.status.info)

/-! ## Well-formedness: each check refuses a term that is ill-formed in that one point (R57, R111) -/

theorem test_wf_accepts_test_configuration : (Device.ofConfig Config.test).isSome = true := by decide +kernel

theorem test_wf_refuses_no_rows : Device.ofConfig { Config.test with rowCount := 0, ledCount := 0, pos := [] } = none := by
  decide +kernel

theorem test_wf_refuses_no_columns : Device.ofConfig { Config.test with channelsPerRow := 0, ledCount := 0, pos := [] } = none := by
  decide +kernel

theorem test_wf_refuses_missing_position : Device.ofConfig { Config.test with ledCount := 6 } = none := by decide +kernel

theorem test_wf_refuses_row_outside :
    Device.ofConfig { Config.test with pos := [⟨0, 0⟩, ⟨0, 1⟩, ⟨1, 0⟩, ⟨1, 1⟩, ⟨3, 0⟩] } = none := by decide +kernel

theorem test_wf_refuses_column_outside :
    Device.ofConfig { Config.test with pos := [⟨0, 0⟩, ⟨0, 1⟩, ⟨1, 0⟩, ⟨1, 1⟩, ⟨2, 2⟩] } = none := by decide +kernel

theorem test_wf_refuses_shared_position :
    Device.ofConfig { Config.test with pos := [⟨0, 0⟩, ⟨0, 1⟩, ⟨1, 0⟩, ⟨1, 1⟩, ⟨1, 1⟩] } = none := by decide +kernel

theorem test_wf_refuses_short_gamma : Device.ofConfig { Config.test with gamma := [0, 16383] } = none := by decide +kernel

theorem test_wf_refuses_gamma_not_from_zero :
    Device.ofConfig { Config.test with gamma := List.replicate 256 16383 } = none := by decide +kernel

theorem test_wf_refuses_other_maximum : Device.ofConfig { Config.test with pwmMax := 16382 } = none := by decide +kernel

theorem test_wf_refuses_falling_gamma :
    Device.ofConfig { Config.test with gamma := [0, 2, 1] ++ List.replicate 253 16383 } = none := by decide +kernel

theorem test_wf_refuses_shared_colour_bit : Device.ofConfig { Config.test with gBit := 0 } = none := by decide +kernel

theorem test_wf_refuses_colour_bit_16 : Device.ofConfig { Config.test with bBit := 16 } = none := by decide +kernel

theorem test_wf_refuses_gain_64 : Device.ofConfig { Config.test with defaultGain := 64 } = none := by decide +kernel

theorem test_wf_refuses_latch_window_16 : Device.ofConfig { Config.test with glLatchFrom := 16 } = none := by decide +kernel

theorem test_wf_refuses_no_high_cycle : Device.ofConfig { Config.test with rstHighCycles := 0 } = none := by decide +kernel

theorem test_wf_refuses_wide_index : Config.wfIndexWidth { Config.test with ledCount := 65537 } = false := by decide

theorem test_wf_refuses_row_of_transfer :
    Instr.wf Config.test (.rowTransfer 3) = false ∧ Instr.wf Config.test (.rowTransfer 2) = true := by decide

/-! ## Decoding: words written out from R80 and R81 (V11), and the operand bits of opcode_table.json -/

theorem test_decode_init : decode (.command 0x010000000000) = .ok .init := by decide

theorem test_decode_flush : decode (.command 0x020000000000) = .ok .flush := by decide

theorem test_decode_setColor : decode (.command 0x03000301FF10) = .ok (.setColor 3 1 255 16) := by decide

theorem test_decode_setColorAll : decode (.command 0x040000FF8000) = .ok (.setColorAll 255 128 0) := by decide

theorem test_decode_wrcfg : decode (.command 0x050000000003) = .ok (.wrcfg 3) := by decide

theorem test_decode_tick : decode .tick = .ok .tick := by decide

theorem test_decode_lookup : decode (.rom 0b10000000) = .ok (.lookup 128) := by decide

theorem test_decode_enc : decode (.encoder 0b0000000111111111000100000101) = .ok (.enc 1 255 16 5) := by decide

theorem test_decode_pulse : decode (.pulse 0b1010) = .ok (.pulse true false true false) := by decide

theorem test_decode_rowTransfer : decode (.rowTransfer 2) = .ok (.rowTransfer 2) := by decide

theorem test_decode_globalLatch : decode .globalLatch = .ok .globalLatch := by decide

theorem test_decode_pwmReset : decode .pwmReset = .ok .pwmReset := by decide

theorem test_decode_configWrite : decode (.configWrite 0x43) = .ok (.configWrite 0x43) := by decide

theorem test_decode_rejects_by_name :
    decode (.command 0x000000000000) = .error (.unassignedOp 0) ∧ decode (.command 0x060000000000) = .error (.unassignedOp 6) ∧
    decode (.command 0xFF1234000000) = .error (.unassignedOp 0xFF) ∧
    decode (.command 0x020000000001) = .error (.reservedField 2) ∧
    decode (.command 0x040001000000) = .error (.reservedField 4) := by decide

/-- The words of opcode_table.json that are not command words (log 9). -/
theorem test_decode_table_words_of_ports :
    decodeTableWord 8 1 = some .tick ∧ decodeTableWord 8 0b10000000 = some (.lookup 128) ∧
    decodeTableWord 32 0b0000000111111111000100000101 = some (.enc 1 255 16 5) ∧
    decodeTableWord 8 0b1010 = some (.pulse true false true false) ∧ decodeTableWord 16 0xFFFF = some (.rowTransfer 0) ∧
    decodeTableWord 8 0b0001111 = some .pwmReset ∧ decodeTableWord 32 0b1000010000110001 = some (.configWrite 3) := by decide

/-- The word put by `withFetchWord` is run by the very next step. -/
theorem test_fetch_word_runs :
    step (State.reset.withFetchWord 48 0x010000000000) = exec .init State.reset ∧
    step (State.reset.withFetchWord 8 1) = exec .tick State.reset := ⟨step_cons (r := .command 0x010000000000) rfl, step_cons (r := .tick) rfl⟩

/-! ## Effects: the spec's vectors -/

/-- V1.3, V1.4. -/
theorem test_lookup :
    run (.lookup 1) ready (·.result) = some 0x0040 ∧ run (.lookup 127) ready (·.result) = some 0x1FDF ∧
    run (.lookup 128) ready (·.result) = some 0x201F := by decide +kernel

/-- V4.4. -/
theorem test_enc : ((List.range 16).map fun p => run (.enc 1 255 16 (BitVec.ofNat 4 p)) ready (·.result)) = words44.map some := by
  decide +kernel

/-- V2.2, V2.4. -/
theorem test_setColor_range :
    command 0x030004FFFFFF ready (fun s => (readFb s 4, statusOf s)) = some (⟨255, 255, 255⟩, false, 0, 0) ∧
    command 0x03FFFF000000 ready (fun s => (s.fb, statusOf s)) = some ([], true, 1, 0xFFFF) := by decide +kernel

/-- V2.6: the initialisation check comes before the operand check. -/
theorem test_setColor_before_init : command 0x030005090909 State.reset statusOf = some (true, 2, 0) := by decide +kernel

/-- V3.1, V3.2. -/
theorem test_setColorAll :
    command 0x040000FF8000 ready (fun s => (List.range 5).map (readFb s)) = some (List.replicate 5 ⟨255, 128, 0⟩) ∧
    command 0x040000000000 { ready with fb := [(2, ⟨1, 1, 1⟩)] } (·.fb) = some [] := by decide +kernel

/-- V4.6: one LED's words, the other rows black, `PENDING` and `PEND_LEFT`. -/
theorem test_flush :
    command 0x020000000000 { ready with fb := [(3, ⟨1, 255, 16⟩)] }
      (fun s => (column 1 1 s, [column 0 0 s, column 0 1 s, column 1 0 s, column 2 0 s, column 2 1 s], s.pending, s.pendLeft)) =
    some (words44, List.replicate 5 (List.replicate 16 0), true, 3) := by decide +kernel

/-- V4.7, its unmapped slot: the word that stood there before is gone. -/
theorem test_flush_unmapped_slot :
    command 0x020000000000 (withColumn 2 1 words44 { ready with fb := [(4, ⟨255, 128, 0⟩)] })
      (fun s => (column 2 0 s, column 2 1 s)) =
    some ([0, 0, 3, 1, 1, 1, 1, 1, 1, 1, 1, 3, 3, 3, 3, 3], List.replicate 16 0) := by decide +kernel

/-- V5.1, V5.3. -/
theorem test_pulse :
    run (.pulse true false true false) ready (fun s => (s.trace, s.lines)) =
      some ([.shift true false true false], ⟨false, false, true, false, true⟩) ∧
    run (.pulse false false false true) ready (fun s => (s.pins, s.lines.le)) =
      some ([⟨.dr, false⟩, ⟨.dg, false⟩, ⟨.db, false⟩, ⟨.le, true⟩, ⟨.clk, true⟩, ⟨.clk, false⟩], true) := by decide +kernel

/-- V6.3: column 1 is sent first. -/
theorem test_rowTransfer :
    run (.rowTransfer 1) (withColumn 1 1 words44 ready) (fun s => (s.trace, s.lines.le)) =
      some (shifts 32 0b00000000010000000000000000000000 0b00111111111111110000000000000000
        0b00000100000000110000000000000000 1, false) := by decide +kernel

/-- A row that does not exist (log 13). -/
theorem test_rowTransfer_outside : exec (.rowTransfer 3) ready = .fault (.rowOutOfRange 3) := rfl

/-- V7.1. -/
theorem test_globalLatch : run .globalLatch ready (fun s => (s.trace, s.lines.le)) =
    some (shifts 16 0 0 0 0b0000000000000111, false) := by decide +kernel

/-- V7.4. -/
theorem test_pwmReset : run .pwmReset ready (fun s => (s.trace, s.lines.le)) = some (shifts 7 0 0 0 0b0001111, false) := by
  decide +kernel

/-- V8.3. -/
theorem test_configWrite :
    run (.configWrite 0x3F) ready (fun s => (s.cfg, s.trace)) =
      some (0x87F1, shifts 15 0 0 0 0b001111111111111 ++
        shifts 16 0b1000011111110001 0b1000011111110001 0b1000011111110001 0b0000011111111111) := by decide +kernel

/-- V8.2: bits 7:6 of the operand are masked off; the data lines keep `CFG[0]`; the enabled row stays enabled. -/
theorem test_wrcfg :
    command 0x050000000043 { ready with rowEn := [(0, true)] }
      (fun s => (s.cfg, s.lines, rowEnabled s 0, s.trace.length)) =
    some (0x8431, ⟨false, false, true, true, true⟩, true, 31) := by decide +kernel

/-- V8.6. -/
theorem test_wrcfg_before_init : command 0x050000000003 State.reset (fun s => (s.cfg, s.trace, statusOf s)) =
    some (0, [], true, 2, 0) := by decide +kernel

/-- V9.3: the last row of the frame, the wrap of `ROWIDX`, and the end of `PENDING`. -/
theorem test_tick :
    run .tick { ready with rowIdx := 2, rowEn := [(1, true)], pending := true, pendLeft := 1 }
      (fun s => (s.trace, s.rowIdx, (List.range 3).map (rowEnabled s), s.pending, s.pendLeft)) =
    some (rowsOffEvents3 ++ shifts 32 0 0 0 1 ++ shifts 16 0 0 0 0b0000000000000111 ++ shifts 7 0 0 0 0b0001111 ++
      [.row 2 true], 0, [false, false, true], false, 0) := by decide +kernel

/-- V9.4, V9.5. -/
theorem test_tick_counts_pending :
    run .tick { ready with rowIdx := 1, pending := true, pendLeft := 3 } (fun s => (s.rowIdx, s.pending, s.pendLeft)) =
      some (2, true, 2) ∧
    run .tick { ready with rowIdx := 1 } (fun s => (s.rowIdx, s.pending, s.pendLeft)) = some (2, false, 0) := by decide +kernel

/-- V10.1, from a state with other values in what INIT sets. -/
theorem test_init :
    command 0x010000000000 { State.reset with rb := [(7, 5)], rowIdx := 2, rowEn := [(1, true)] }
      (fun s => (s.rb, s.rowIdx, s.rowEn, s.inited && s.tickEn)) = some ([], 0, [], true) ∧
    command 0x010000000000 State.reset (fun s => (s.cfg, s.lines)) = some (0x8601, ⟨false, false, true, true, true⟩) ∧
    command 0x010000000000 State.reset (·.trace) =
    some (rowsOffEvents3 ++ shifts 15 0 0 0 0b001111111111111 ++
      shifts 16 0b1000011000000001 0b1000011000000001 0b1000011000000001 0b0000011111111111) := by decide +kernel

/-- V10.2. -/
theorem test_init_twice : command 0x010000000000 ready (fun s => (s.trace, s.rowIdx, statusOf s)) = some ([], 0, true, 3, 0) := by
  decide +kernel

/-- V11.8, V11.10, V8.7. -/
theorem test_illegal_words :
    command 0xFF1234000000 ready statusOf = some (true, 4, 0xFF12) ∧
    command 0x060000000000 State.reset statusOf = some (true, 4, 0x0600) ∧
    command 0x050000000100 ready statusOf = some (true, 4, 0x0500) := by decide +kernel

/-- The status port `{ERR, CODE, INFO}` after V2.3. -/
theorem test_statusPort : command 0x030005090909 ready State.statusPort = some 0x110005#21 := by decide +kernel

/-! ## Witnesses: for each statement with hypotheses, values that meet them, clause by clause at the bounds -/

/-- `WordSelectingARowDecodesToIt`: a word for each of the five rows, the three with operands at their largest. -/
theorem witness_words_selecting_a_row :
    0x010000000000#48 &&& 0xFFFFFFFFFFFF#48 = 0x010000000000#48 ∧ 0x020000000000#48 &&& 0xFFFFFFFFFFFF#48 = 0x020000000000#48 ∧
    0x03FFFFFFFFFF#48 &&& 0xFF0000000000#48 = 0x030000000000#48 ∧ 0x040000FFFFFF#48 &&& 0xFFFFFF000000#48 = 0x040000000000#48 ∧
    0x0500000000FF#48 &&& 0xFFFFFFFFFF00#48 = 0x050000000000#48 := by decide

/-- `IllegalWordRaisesIllegalCommand`: on either side of the assigned codes, and a reserved bit at each end of its field. -/
theorem witness_illegal_words :
    (∀ w, (load [.command w] State.reset).inbox = .command w :: []) ∧
    ∀ w ∈ [0x000000000000#48, 0x060000000000#48, 0xFFFFFFFFFFFF#48, 0x010000000001#48, 0x028000000000#48, 0x040001000000#48,
      0x050000000100#48],
      w &&& 0xFFFFFFFFFFFF#48 ≠ 0x010000000000#48 ∧ w &&& 0xFFFFFFFFFFFF#48 ≠ 0x020000000000#48 ∧
      w &&& 0xFF0000000000#48 ≠ 0x030000000000#48 ∧ w &&& 0xFFFFFF000000#48 ≠ 0x040000000000#48 ∧
      w &&& 0xFFFFFFFFFF00#48 ≠ 0x050000000000#48 := ⟨fun _ => rfl, by simp⟩

/-- `EncodeOfDecodedIsTheRequest`. -/
theorem witness_decoded_request : decode (.command 0x03FFFFFF00FF) = .ok (.setColor 0xFFFF 0xFF 0 0xFF) := by decide

/-- `StepRunsTheDecodedInstruction`. -/
theorem witness_step : (load [.tick, .tick] ready).inbox = .tick :: [.tick] ∧ decode .tick = .ok .tick := ⟨rfl, rfl⟩

/-- `StepWithoutRequestChangesNothing`. -/
theorem witness_no_request : State.reset.inbox = [] := rfl

/-- `LookupAnswersTheRomEntry`: its two clauses at the ends of the table. -/
theorem witness_lookup_ends : (0x00#8 = (0 : Intensity)) ∧ (0xFF#8 = (255 : Intensity)) := ⟨rfl, rfl⟩

/-- `LookupIsMonotone`: the ends of the table, in two different states. -/
theorem witness_lookup_monotone : ∃ s' t' : State, ready.conf = State.reset.conf ∧ (0 : Intensity) ≤ 255 ∧
    exec (.lookup 0) ready = .next s' ∧ exec (.lookup 255) State.reset = .next t' := ⟨_, _, rfl, by decide, rfl, rfl⟩

/-- `EncPacksOnePlaneOfEachColour`: a place that is no colour bit. -/
theorem witness_enc_other_bit : (15 : Nat) ≠ ready.conf.rBit ∧ 15 ≠ ready.conf.gBit ∧ 15 ≠ ready.conf.bBit := by decide +kernel

/-- `SetColorWritesOneElementOrRaises`: not initialised; the first and the largest invalid index; the last valid one, with the
Color already stored there. -/
theorem witness_setColor_clauses :
    State.reset.inited = false ∧ ready.inited = true ∧ ready.conf.ledCount ≤ (5#16).toNat ∧
    ready.conf.ledCount ≤ (0xFFFF#16).toNat ∧ (4#16).toNat < ready.conf.ledCount ∧
    Mem.wf Color.black { ready with fb := [(4, ⟨7, 7, 7⟩)] }.fb = true ∧
    readFb { ready with fb := [(4, ⟨7, 7, 7⟩)] } (4#16).toNat = ⟨7, 7, 7⟩ := by decide +kernel

/-- `SetColorAllWritesEveryElementOrRaises`: both cases, the last element, and the first index outside. -/
theorem witness_setColorAll_clauses : State.reset.inited = false ∧ ready.inited = true ∧ 4 < ready.conf.ledCount ∧
    ready.conf.ledCount ≤ 5 := by decide +kernel

/-- `SetColorAllIsTheSequenceOfSetColors`: an initialised core, and one before INIT that has LEDs. -/
theorem witness_setColorAll_sequence :
    (ready.inited = true ∧ ready.inbox = [] ∧ ∃ t, exec (.setColorAll 1 2 3) ready = .next t) ∧
    (0 < State.reset.conf.ledCount ∧ State.reset.inbox = [] ∧ ∃ t, exec (.setColorAll 1 2 3) State.reset = .next t) :=
  ⟨⟨rfl, rfl, goesOn (by decide +kernel)⟩, by decide +kernel, rfl, goesOn (by decide +kernel)⟩

/-- `FlushEncodesTheWholeFrame`: both cases, the last plane of the last LED, and the one slot column no LED maps to. -/
theorem witness_flush_clauses : State.reset.inited = false ∧ ready.inited = true ∧ 4 < ready.conf.ledCount ∧ 15 < 16 ∧
    2 < ready.conf.rowCount ∧ 1 < ready.conf.channelsPerRow ∧
    ∀ i < ready.conf.ledCount, ready.conf.posAt i ≠ ⟨2, 1⟩ := by decide +kernel

/-- `ready` at another place of the scan, with another `RB`. -/
def readyElsewhere : State := { ready with rowIdx := 2, rb := [(0, 7)] }

/-- `FlushDependsOnColoursOnly`. -/
theorem witness_flush_depends : ready.inited = true ∧ readyElsewhere.inited = true ∧ ready.conf = readyElsewhere.conf ∧
    (∀ i < ready.conf.ledCount, readFb ready i = readFb readyElsewhere i) ∧
    (∃ s', exec .flush ready = .next s') ∧ ∃ t', exec .flush readyElsewhere = .next t' :=
  ⟨rfl, rfl, rfl, fun _ _ => rfl, ⟨_, execFlush_eq _⟩, ⟨_, execFlush_eq _⟩⟩

/-- `ready` with another Color for LED 4, on row 2. -/
def readyRow2 : State := { ready with fb := [(4, ⟨1, 2, 3⟩)] }

/-- `FlushRoundTripAndRowIsolation`: its four clauses; in the third only the Color of an LED on row 2 differs. -/
theorem witness_flush_round_trip :
    ((∃ t, exec .flush ready = .next t) ∧ ready.inited = true ∧ 4 < ready.conf.ledCount ∧ 15 < 16) ∧
    (∃ t, exec (.setColor 4 1 2 3) ready = .next t) ∧
    ((∃ t, exec .flush readyRow2 = .next t) ∧ readyRow2.inited = true ∧ readyRow2.conf = ready.conf ∧
      (∀ i < ready.conf.ledCount, (ready.conf.posAt i).row ≠ 2 → readFb readyRow2 i = readFb ready i) ∧
      1 < ready.conf.rowCount ∧ 1 ≠ 2 ∧ 31 < ready.conf.channelsPerRow * 16) ∧
    ∀ i < ready.conf.ledCount, ready.conf.posAt i ≠ ⟨2, 1⟩ := by
  refine ⟨⟨⟨_, execFlush_eq _⟩, rfl, ?_, ?_⟩, goesOn ?_, ⟨⟨_, execFlush_eq _⟩, rfl, rfl, ?_, ?_, ?_, ?_⟩, ?_⟩ <;> decide +kernel

/-- `FlushAgainChangesNoPicture`: `u` is the flushed state itself, and a tick follows. -/
theorem witness_flush_again : ready.inited = true ∧ ∃ t v : State, exec .flush ready = .next t ∧ t.inited = true ∧
    t.seq = Seq.idle ∧ exec .flush t = .next v ∧
    (∃ a, Host.Core.run Sys2Proof.core 1 (load [.tick] v) = .next a) ∧ ∃ b, Host.Core.run Sys2Proof.core 1 (load [.tick] t) = .next b := by
  refine ⟨rfl, _, _, execFlush_eq _, rfl, rfl, execFlush_eq _, goesOn ?_, goesOn ?_⟩ <;> decide +kernel

/-- `PulseIsOneCycle`. -/
theorem witness_clock_low : ready.lines.clk = false := rfl

/-- `RowTransferSendsTheRow`, the last row; `RowTransferOfNoRowFaults`, the first that does not exist. -/
theorem witness_rows : 2 < ready.conf.rowCount ∧ ready.conf.rowCount ≤ 3 := by decide +kernel

/-- `ConfigWriteSendsTheRegister` and `WrcfgRewritesTheGain`: a value of `v` (V8.1), and both cases of the latter. -/
theorem witness_config_value : State.reset.inited = false ∧ ready.inited = true ∧
    0x8431#16 = ((0b000011#8 &&& 0b111111#8).setWidth 16 <<< 4) ||| ready.conf.configDefaultBase := by decide +kernel

/-- `ConfigRegisterHasItsFields`. -/
theorem witness_config_fields : ∃ t, exec (.configWrite 0xFF) ready = .next t := goesOn (by decide +kernel)

/-- `UpperGainBitsAreIgnored` (V8.2). -/
theorem witness_upper_gain_bits : 0x43#8 &&& 0x3F#8 = 0x03#8 &&& 0x3F#8 := by decide

/-- `EachBurstEndsInOneLatchRun`: its clause about rows at the last row, and what `EndsInLatchRun` says of PWM_RESET's `LE` string
in V7.4, at its first and last cycle. -/
theorem witness_burst : 2 < ready.conf.rowCount ∧ EndsInLatchRun 7 4 (shifts 7 0 0 0 0b0001111) ∧ 0 < 7 ∧ 6 < 7 := by
  refine ⟨by decide +kernel, ⟨by decide, by decide, fun k hk => ⟨false, false, false, ?_⟩⟩, by decide, by decide⟩
  have h : ∀ k < 7, (shifts 7 0 0 0 0b0001111)[k]? = some (.shift false false false (decide (7 - 4 ≤ k))) := by decide +kernel
  exact h k hk

/-- `TickRefreshesOneRow`: ticks disabled; a core that is not idle; an admitted tick, the last row line. -/
theorem witness_tick_clauses : State.reset.tickEn = false ∧ { ready with seq := ⟨.cfgData, 0⟩ }.seq ≠ Seq.idle ∧
    ready.tickEn = true ∧ ready.seq = Seq.idle ∧ 2 < ready.conf.rowCount ∧
    ({ ready with pending := true, pendLeft := 1 }.pending = true → { ready with pending := true, pendLeft := 1 }.pendLeft ≠ 0) := by
  decide +kernel

/-- `TickEmitsAFixedNumberOfEvents`, `RowEnablesAreMutuallyExclusive`. -/
theorem witness_tick_admitted : ready.tickEn = true ∧ ready.seq = Seq.idle ∧ ∃ t, exec .tick ready = .next t :=
  ⟨rfl, rfl, _, execTick_eq _⟩

/-- `ScanVisitsEveryRowOnce`, from the last row, with a tick among its requests. -/
theorem witness_scan : { ready with rowIdx := 2 }.inited = true ∧ { ready with rowIdx := 2 }.tickEn = true ∧
    { ready with rowIdx := 2 }.seq = Seq.idle ∧ { ready with rowIdx := 2 }.rowIdx < ready.conf.rowCount ∧
    0 < ready.conf.rowCount ∧ (∀ r ∈ [encode .flush, .tick], r.external = true) ∧
    0 < [encode .flush, .tick].countP isTick := by decide +kernel

/-- Two ticks, a tick less than a row set, with a gain change between them. -/
def requestsBeforeRepeat : List Request := [.tick, .command 0x050000000003, .tick]

/-- `TickWithPendingClearRepeats`: an initialised core with `PENDING` clear, before and after. -/
theorem witness_pending_clear : (ready.inited = true ∧ ready.tickEn = true ∧ ready.seq = Seq.idle ∧
      ready.rowIdx < ready.conf.rowCount) ∧
    (∀ r ∈ requestsBeforeRepeat, r.external = true) ∧ requestsBeforeRepeat.countP isTick + 1 = ready.conf.rowCount ∧
    (nextOf (Host.Core.run Sys2Proof.core (requestsBeforeRepeat.length + 1) (load (.tick :: requestsBeforeRepeat) ready))).map
      (·.pending) = some false := by decide +kernel

/-- Three ticks with a gain change and a SET_COLOR among them, and no FLUSH. -/
def requestsBetween : List Request :=
  [.tick, .command 0x050000000003, .tick, .command 0x030004FFFFFF, .tick]

/-- What the request lists of the next two statements must meet. -/
theorem witness_requests_between :
    (∀ r ∈ requestsBetween, r.external = true ∧ isFlush r = false) ∧
    requestsBetween.countP isTick = ready.conf.rowCount := by decide +kernel

/-- `TickRepeatsItsRowsPreviousTick`. -/
theorem witness_tick_repeats : ready.inited = true ∧ ready.tickEn = true ∧ ready.seq = Seq.idle ∧
    ready.rowIdx < ready.conf.rowCount ∧
    ∃ t : State, Host.Core.run Sys2Proof.core requestsBetween.length (load requestsBetween ready) = .next t :=
  ⟨rfl, rfl, rfl, by decide +kernel, goesOn (by decide +kernel)⟩

/-- `PendingLastsOneFullRowSetCycle`. -/
theorem witness_pending_cycle : ready.inited = true ∧ ready.tickEn = true := ⟨rfl, rfl⟩

/-- `TickEventsDependOnRowBuffersOnly`: the two states differ in `FB`, `PENDING`, `PEND_LEFT`, `CFG` and `STATUS`. -/
theorem witness_tick_events_depend :
    let t := { ready with fb := [(0, ⟨1, 2, 3⟩)], pending := true, pendLeft := 3, cfg := 0, status := ⟨true, 1, 5⟩ }
    ready.conf = t.conf ∧ ready.rb = t.rb ∧ ready.rowIdx = t.rowIdx ∧ ready.tickEn = t.tickEn ∧ ready.seq = t.seq :=
  ⟨rfl, rfl, rfl, rfl, rfl⟩

/-- `TickAfterFlushSendsTheGammaPlanes`: LED 1, in the highest column of row 0, its last plane. -/
theorem witness_tick_after_flush : (∃ t, exec .flush ready = .next t) ∧ ready.inited = true ∧ ready.tickEn = true ∧
    1 < ready.conf.ledCount ∧ (ready.conf.posAt 1).row = ready.rowIdx ∧ 15 < 16 := by
  refine ⟨⟨_, execFlush_eq _⟩, rfl, rfl, ?_, ?_, ?_⟩ <;> decide +kernel

/-- `InitStartsTheCoreOnce`: both cases, the value written (V8.5), the last slot and the last row line. -/
theorem witness_init_clauses : ready.inited = true ∧ State.reset.inited = false ∧
    0x8601#16 = ((State.reset.conf.defaultGain &&& 0b111111#8).setWidth 16 <<< 4) ||| State.reset.conf.configDefaultBase ∧
    2 < State.reset.conf.rowCount ∧ 31 < State.reset.conf.channelsPerRow * 16 := by decide +kernel

/-- `CommandsBeforeInitRaiseNotInitialized`: each of its four kinds of command. -/
theorem witness_commands_before_init : State.reset.inited = false ∧
    ∀ i ∈ [Instr.flush, .setColor 0 1 2 3, .setColorAll 1 2 3, .wrcfg 3],
      i = .flush ∨ (∃ index r g b, i = .setColor index r g b) ∨ (∃ r g b, i = .setColorAll r g b) ∨ ∃ gain8, i = .wrcfg gain8 := by
  simp [State.reset, State.resetWith]

/-- A core that has raised an error, with a FLUSH waiting. -/
def failed : State := { load [encode .flush] ready with status := ⟨true, 1, 5⟩ }

/-- `NoStepClearsErr`: a state with `ERR` set that takes a step, and a step that leaves it clear. -/
theorem witness_err : ((∃ t, step failed = .next t) ∧ failed.status.err = true) ∧
    (nextOf (step (load [.tick] ready))).map (·.status.err) = some false :=
  ⟨⟨goesOn (by decide +kernel), rfl⟩, by decide +kernel⟩

/-- `ResetLeavesTheStatedValues`: the last element of each memory. -/
theorem witness_reset_elements : 4 < Device.test.ledCount ∧ 2 < Device.test.rowCount ∧ 31 < Device.test.channelsPerRow * 16 ∧
    PowerOn.zero.rowIdx < Device.test.rowCount := by decide +kernel

/-- `StepKeepsTheInvariant`: an initialised core with a tick and a FLUSH waiting meets the invariant, and its step goes on. -/
theorem witness_invariant : CoreInv (load [.tick, encode .flush] ready) ∧
    ∃ t, step (load [.tick, encode .flush] ready) = .next t := by
  refine ⟨⟨by decide, ⟨rfl, rfl, rfl, rfl, rfl, rfl⟩, ⟨rfl, by decide +kernel, by decide, by decide +kernel, rfl, ?_⟩, fun _ =>
    ⟨rfl, rfl, ?_, ?_, ?_, ⟨0x20, by decide +kernel⟩⟩⟩, goesOn (by decide +kernel)⟩
  · intro h; cases h
  · intro _ h; cases h
  · exact ⟨fun _ _ => by simp [load, ready, State.reset, State.resetWith], fun _ _ => rfl⟩
  · intro _ _ _ _ _ _ _ _
    show (0 : Word).getLsbD _ = false
    simp

/-- `StepKeepsMemoryCanonical`. -/
theorem witness_memory : MemoryOk (load [.tick] ready) ∧ (load [.tick] ready).rowIdx < (load [.tick] ready).conf.rowCount ∧
    ∃ t, step (load [.tick] ready) = .next t :=
  ⟨⟨rfl, rfl, rfl, rfl, rfl, rfl⟩, by decide +kernel, goesOn (by decide +kernel)⟩

/-- `StepKeepsTheTracesAgreeing`. -/
theorem witness_traces_agree : TracesAgree (load [.tick] ready) ∧ ∃ t, step (load [.tick] ready) = .next t :=
  ⟨fun _ => rfl, goesOn (by decide +kernel)⟩

/-- `StepOnlyAppendsAndNeverDisables`. -/
theorem witness_step_goes_on : (∃ t, step (load [.tick] ready) = .next t) ∧ (load [.tick] ready).inited = true ∧
    (load [.tick] ready).tickEn = true := ⟨goesOn (by decide +kernel), rfl, rfl⟩

/-- `OnlyTheNamedOperationsWriteEachState`: a TICK and a LOOKUP, which between them meet the premise of every clause but the two
below. -/
theorem witness_only_writers : (∃ t, exec .tick ready = .next t) ∧ (∃ t, exec (.lookup 1) ready = .next t) ∧
    (∃ t, exec .flush ready = .next t) ∧ Instr.external (.lookup 1) = false := ⟨⟨_, execTick_eq _⟩, ⟨_, rfl⟩, ⟨_, execFlush_eq _⟩, rfl⟩

/-- `NoExternalRequestStopsTheCore`: an illegal word and a tick waiting. -/
theorem witness_external : ∀ r ∈ (load [.command 0x060000000000, .tick] ready).inbox, r.external = true := by decide

end Sys2Proof.Tests
end

/-! ## Every external request lets the core go on (O53) -/

namespace Sys2Proof.Machine

/-- SET_COLOR ends in one state, whichever check it fails or passes (R121, R223). -/
theorem execSetColor_eq (index : BitVec 16) (r g b : Intensity) (s : State) :
    execSetColor index r g b s = .next
      (if s.inited = false then raise .notInitialized 0 s
       else if indexValid s.conf.toConfig index = false then raise .invalidIndex index s
       else writeFb index.toNat ⟨r, g, b⟩ s) := by
  simp only [execSetColor, apply_ite Host.Outcome.next]

/-- SET_COLOR_ALL ends in one state, before INIT and after it (R123). -/
theorem execSetColorAll_eq (r g b : Intensity) (s : State) :
    execSetColorAll r g b s = .next (if s.inited = false then raise .notInitialized 0 s else fillFb ⟨r, g, b⟩ s) := by
  simp only [execSetColorAll, apply_ite Host.Outcome.next]

/-- An operation that a host command or the timer can start goes on from every state, whatever it finds there: an error is
raised and not a stop (R217), and a tick transfers the row without the operand check of a ROW_TRANSFER (R185). -/
theorem exec_next_of_external {i : Instr} (hi : i.external = true) (s : State) : ∃ t, exec i s = .next t := by
  cases i with
  | init => exact ⟨_, execInit_eq s⟩
  | flush => exact ⟨_, execFlush_eq s⟩
  | setColor index r g b => exact ⟨_, execSetColor_eq index r g b s⟩
  | setColorAll r g b => exact ⟨_, execSetColorAll_eq r g b s⟩
  | wrcfg gain8 => exact ⟨_, execWrcfg_eq gain8 s⟩
  | tick => exact ⟨_, execTick_eq s⟩
  | lookup | enc | pulse | rowTransfer | globalLatch | pwmReset | configWrite => cases hi

/-- A step goes on when the request it takes, the first one waiting, came from outside; the requests behind it do not matter. -/
theorem step_next_of_head_external {s : State} {r : Request} {rest : List Request} (h : s.inbox = r :: rest)
    (hr : r.external = true) : ∃ t, step s = .next t := by
  rw [step_cons h]
  cases hd : decode r with
  | ok i => exact exec_next_of_external (decode_external hr hd) _
  | error _ => exact ⟨_, rfl⟩

/-- Settles O53, by the request the step takes: none (R256), or an external one, which is run or rejected (R222). -/
theorem noExternalRequestStopsTheCore : Obligations.NoExternalRequestStopsTheCore := by
  intro s hs
  cases hb : s.inbox with
  | nil => exact ⟨s, step_nil hb⟩
  | cons r rest => exact step_next_of_head_external hb (hs r (by simp [hb]))

end Sys2Proof.Machine

/-! ## What an operation that goes on has done

One inversion of `exec`, in the closed forms of its operations: the facts below about every step are case splits on it. -/

namespace Sys2Proof.Machine

/-- `Effect i s t`: operation `i` turns `s` into `t`. -/
inductive Effect : Instr → State → State → Prop where
  /-- A host command raises an error and does nothing else (R217). -/
  | raised {i : Instr} {s : State} (e : ErrorCode) (info : BitVec 16) (hi : i.external = true) (ht : i ≠ .tick) :
      Effect i s (raise e info s)
  /-- A tick that is not admitted (R175, R184). -/
  | ignored {s : State} (h : ¬(s.tickEn = true ∧ s.seq = Seq.idle)) : Effect .tick s s
  /-- An admitted tick (R177). -/
  | refreshed {s : State} (ht : s.tickEn = true) (hs : s.seq = Seq.idle) : Effect .tick s (refresh s)
  /-- A first INIT (R201). -/
  | started {s : State} (h : s.inited = false) : Effect .init s (startUp s)
  /-- FLUSH (R131). -/
  | flushed {s : State} (h : s.inited = true) :
      Effect .flush s { s with rb := writeFrame s.conf s.fb s.conf.ledCount [], pendLeft := s.conf.rowCount,
                               pending := true, seq := Seq.idle }
  /-- SET_COLOR of an element that exists (R121). -/
  | colorSet {s : State} {index : BitVec 16} (r g b : Intensity) (h : s.inited = true)
      (hx : index.toNat < s.conf.ledCount) : Effect (.setColor index r g b) s (writeFb index.toNat ⟨r, g, b⟩ s)
  /-- SET_COLOR_ALL (R123). -/
  | allColorsSet {s : State} (r g b : Intensity) (h : s.inited = true) :
      Effect (.setColorAll r g b) s (fillFb ⟨r, g, b⟩ s)
  /-- WRCFG (R205). -/
  | gainWritten {s : State} (gain8 : BitVec 8) (h : s.inited = true) :
      Effect (.wrcfg gain8) s (returnToIdle (configWrite gain8 s))
  /-- LOOKUP (R110). -/
  | lookedUp {s : State} (v : Intensity) : Effect (.lookup v) s { s with result := gammaAt s.conf.toConfig v }
  /-- ENC (R130). -/
  | encoded {s : State} (r g b : Intensity) (p : BitVec 4) :
      Effect (.enc r g b p) s { s with result := encWord s.conf.toConfig ⟨r, g, b⟩ p.toNat }
  /-- PULSE (R146). -/
  | pulsed {s : State} (r g b le : Bool) : Effect (.pulse r g b le) s (pulse r g b le s)
  /-- ROW_TRANSFER of a row that exists (R150). -/
  | rowTransferred {s : State} {row : Nat} (h : row < s.conf.rowCount) : Effect (.rowTransfer row) s (transferRow row s)
  /-- GLOBAL_LATCH (R155). -/
  | latched {s : State} : Effect .globalLatch s (globalLatch s)
  /-- PWM_RESET (R157). -/
  | countersReset {s : State} : Effect .pwmReset s (pwmReset s)
  /-- CONFIG_WRITE (R160). -/
  | configWritten {s : State} (gain : BitVec 8) : Effect (.configWrite gain) s (configWrite gain s)

/-- An operation that goes on has done one of these things. -/
theorem exec_effect {i : Instr} {s t : State} (h : exec i s = .next t) : Effect i s t := by
  cases i with
  | init =>
    obtain rfl := Host.Outcome.next.inj ((execInit_eq s).symm.trans h)
    split
    · exact .raised _ _ rfl nofun
    · next hi => exact .started (Bool.eq_false_iff.2 hi)
  | flush =>
    obtain rfl := Host.Outcome.next.inj ((execFlush_eq s).symm.trans h)
    split
    · exact .raised _ _ rfl nofun
    · next hi => exact .flushed (Bool.eq_true_of_not_eq_false hi)
  | setColor index r g b =>
    obtain rfl := Host.Outcome.next.inj ((execSetColor_eq index r g b s).symm.trans h)
    split
    · exact .raised _ _ rfl nofun
    · next hi =>
      split
      · exact .raised _ _ rfl nofun
      · next hx => exact .colorSet r g b (Bool.eq_true_of_not_eq_false hi) (by simpa [indexValid] using hx)
  | setColorAll r g b =>
    obtain rfl := Host.Outcome.next.inj ((execSetColorAll_eq r g b s).symm.trans h)
    split
    · exact .raised _ _ rfl nofun
    · next hi => exact .allColorsSet r g b (Bool.eq_true_of_not_eq_false hi)
  | wrcfg gain8 =>
    obtain rfl := Host.Outcome.next.inj ((execWrcfg_eq gain8 s).symm.trans h)
    split
    · exact .raised _ _ rfl nofun
    · next hi => exact .gainWritten gain8 (Bool.eq_true_of_not_eq_false hi)
  | tick =>
    obtain rfl := Host.Outcome.next.inj ((execTick_eq s).symm.trans h)
    split
    · next ha => exact .refreshed ha.1 ha.2
    · next ha => exact .ignored ha
  | lookup v => obtain rfl := Host.Outcome.next.inj h; exact .lookedUp v
  | enc r g b p => obtain rfl := Host.Outcome.next.inj h; exact .encoded r g b p
  | pulse r g b le => obtain rfl := Host.Outcome.next.inj h; exact .pulsed r g b le
  | rowTransfer row =>
    simp only [exec, execRowTransfer] at h
    split at h
    · next hr => cases h; exact .rowTransferred hr
    · cases h
  | globalLatch => obtain rfl := Host.Outcome.next.inj h; exact .latched
  | pwmReset => obtain rfl := Host.Outcome.next.inj h; exact .countersReset
  | configWrite gain => obtain rfl := Host.Outcome.next.inj h; exact .configWritten gain

/-! ### STATUS -/

/-- An operation leaves `STATUS` alone or ends with `ERR` set (R36, R217). -/
theorem Effect.status {i : Instr} {s t : State} (h : Effect i s t) : t.status = s.status ∨ t.status.err = true := by
  cases h with
  | raised => exact .inr rfl
  | refreshed => exact .inl (by rw [refresh_eq])
  | started => exact .inl (by rw [startUp_eq])
  | allColorsSet => exact .inl (by rw [fillFb_eq])
  | gainWritten | configWritten => exact .inl (by simp [configWrite_eq])
  | pulsed => exact .inl (by rw [pulse_eq])
  | rowTransferred => exact .inl (by rw [transferRow_eq])
  | latched => exact .inl (by rw [globalLatch_eq])
  | countersReset => exact .inl (by rw [pwmReset_eq])
  | ignored | flushed | colorSet | lookedUp | encoded => exact .inl rfl

/-- So does a step; with an illegal word it sets `ERR` (R222). -/
theorem step_status {s t : State} (h : step s = .next t) : t.status = s.status ∨ t.status.err = true := by
  obtain rfl | ⟨r, rest, -, ⟨i, -, he⟩ | ⟨w, -, rfl⟩⟩ := step_cases h
  · exact .inl rfl
  · exact (exec_effect he).status
  · exact .inr rfl

/-- Settles O42: of the two things a step can do to `STATUS`, neither clears `ERR`, and setting it is the only change. -/
theorem noStepClearsErr : Obligations.NoStepClearsErr := by
  intro s t h
  obtain hk | he := step_status h
  · exact ⟨fun hs => hk ▸ hs, fun _ => hk⟩
  · exact ⟨fun _ => he, fun hf => absurd he (by simp [hf])⟩

/-! ### What no step undoes -/

/-- `t` comes after `s`: the traces have only grown (R38, R63 (d)), the configuration is the same (R263), and no enabling flag was
cleared (R33, R34). -/
def Follows (s t : State) : Prop :=
  (∃ es, t.trace = s.trace ++ es) ∧ (∃ ps, t.pins = s.pins ++ ps) ∧ t.conf = s.conf ∧
  (s.inited = true → t.inited = true) ∧ (s.tickEn = true → t.tickEn = true)

/-- A state with the traces, configuration and flags of `s` follows it. -/
theorem follows_of_eq {s t : State} (htrace : t.trace = s.trace) (hpins : t.pins = s.pins) (hconf : t.conf = s.conf)
    (hinit : t.inited = s.inited) (htick : t.tickEn = s.tickEn) : Follows s t :=
  ⟨⟨[], by simp [htrace]⟩, ⟨[], by simp [hpins]⟩, hconf, fun h => hinit.trans h, fun h => htick.trans h⟩

/-- Every operation appends its events and calls to what was recorded before; INIT alone moves a flag, to 1. -/
theorem Effect.follows {i : Instr} {s t : State} (h : Effect i s t) : Follows s t := by
  cases h with
  | raised | ignored | flushed | colorSet | lookedUp | encoded => exact follows_of_eq rfl rfl rfl rfl rfl
  | allColorsSet => rw [fillFb_eq]; exact follows_of_eq rfl rfl rfl rfl rfl
  | started => simp [Follows, startUp_eq]
  | refreshed => rw [refresh_eq]; exact ⟨⟨_, rfl⟩, ⟨_, rfl⟩, rfl, id, id⟩
  | gainWritten | configWritten => rw [configWrite_eq]; exact ⟨⟨_, rfl⟩, ⟨_, rfl⟩, rfl, id, id⟩
  | pulsed => rw [pulse_eq]; exact ⟨⟨_, rfl⟩, ⟨_, rfl⟩, rfl, id, id⟩
  | rowTransferred => rw [transferRow_eq]; exact ⟨⟨_, rfl⟩, ⟨_, rfl⟩, rfl, id, id⟩
  | latched => rw [globalLatch_eq]; exact ⟨⟨_, rfl⟩, ⟨_, rfl⟩, rfl, id, id⟩
  | countersReset => rw [pwmReset_eq]; exact ⟨⟨_, rfl⟩, ⟨_, rfl⟩, rfl, id, id⟩

/-- Settles O51: taking the request and an illegal word touch none of these fields, and every operation keeps them so. -/
theorem stepOnlyAppendsAndNeverDisables : Obligations.StepOnlyAppendsAndNeverDisables := by
  intro s t h
  obtain rfl | ⟨r, rest, -, ⟨i, -, he⟩ | ⟨w, -, rfl⟩⟩ := step_cases h
  · exact follows_of_eq rfl rfl rfl rfl rfl
  · exact (exec_effect he).follows
  · exact follows_of_eq rfl rfl rfl rfl rfl

end Sys2Proof.Machine

/-! ## The status port (O43) -/

namespace Sys2Proof.Machine

/-- Bit `k` of the status port: `INFO` in bits 15:0, `CODE` in 19:16, `ERR` in bit 20 (R36, R240). -/
theorem getLsbD_statusPort (s : State) (k : Nat) :
    s.statusPort.getLsbD k =
      if k < 16 then s.status.info.getLsbD k else if k < 20 then s.status.code.getLsbD (k - 16)
      else decide (k = 20) && s.status.err := by
  simp only [State.statusPort, BitVec.getLsbD_or, BitVec.getLsbD_shiftLeft, BitVec.getLsbD_setWidth, BitVec.getLsbD_ofBool]
  by_cases hinfo : k < 16
  · simp [hinfo, show k < 21 by omega, show k < 20 by omega]
  have hi : s.status.info.getLsbD k = false := BitVec.getLsbD_of_ge _ _ (by omega)
  by_cases hcode : k < 20
  · simp [hinfo, hcode, hi, show k < 21 by omega, show k - 16 < 21 by omega]
  have hc : s.status.code.getLsbD (k - 16) = false := BitVec.getLsbD_of_ge _ _ (by omega)
  by_cases herr : k = 20
  · simp [herr, BitVec.getLsbD_of_ge]
  · simp [hinfo, hcode, herr, hi, hc, show ¬ k < 21 by omega]

/-- Settles O43, field by field, from the bits of the port. -/
theorem statusPortShowsTheThreeFields : Obligations.StatusPortShowsTheThreeFields := by
  refine fun s => ⟨getLsbD_statusPort s 20, BitVec.eq_of_getLsbD_eq fun k hk => ?_,
    BitVec.eq_of_getLsbD_eq fun k hk => ?_⟩
  · simp [getLsbD_statusPort, hk, show 16 + k < 20 by omega]
  · simp [getLsbD_statusPort, hk]

end Sys2Proof.Machine

/-! ## The invariant of R39 (O46, O47) -/

namespace Sys2Proof.Machine

open Sys2Proof.Safety

/-! ### Row lines and the row index -/

/-- A row line that the device does not have reads as disabled (R50). -/
theorem rowEnabled_of_rowCount_le {s : State} (h : MemoryOk s) {q : Nat} (hq : s.conf.rowCount ≤ q) :
    rowEnabled s q = false := Mem.read_of_inRange h.rowEnRange hq

/-- With every row line driven off none is enabled (R179). -/
theorem read_rowsOff_rowCount {s : State} (h : MemoryOk s) (q : Nat) :
    Mem.read false (rowsOff s.conf.rowCount s.rowEn) q = false := by
  rw [read_rowsOff]
  split
  · rfl
  · next hq => exact rowEnabled_of_rowCount_le h (Nat.le_of_not_lt hq)

/-- After a first INIT no row is enabled (R201). -/
theorem rowEnabled_startUp {s : State} (h : MemoryOk s) (q : Nat) : rowEnabled (startUp s) q = false := by
  rw [startUp_eq]; exact read_rowsOff_rowCount h q

/-- After an admitted tick the row it transferred is enabled and no other is (R179). -/
theorem rowEnabled_refresh {s : State} (h : MemoryOk s) (q : Nat) :
    rowEnabled (refresh s) q = decide (q = s.rowIdx) := by
  rw [refresh_eq, rowEnabled, lineLevel, Mem.read_write, read_rowsOff_rowCount h]
  split <;> simp [*]

theorem nextRow_lt (d : Device) (row : Nat) : nextRow d.toConfig row < d.rowCount := Nat.mod_lt _ d.rowCount_pos

/-- The row before the next one is the row itself, cyclically (R13 (c)). -/
theorem previous_nextRow {c : Config} {row : Nat} (h : row < c.rowCount) :
    (nextRow c row + c.rowCount - 1) % c.rowCount = row := by
  unfold nextRow
  obtain hlt | heq : row + 1 < c.rowCount ∨ row + 1 = c.rowCount := by omega
  · rw [Nat.mod_eq_of_lt hlt, show row + 1 + c.rowCount - 1 = row + c.rowCount by omega, Nat.add_mod_right,
      Nat.mod_eq_of_lt h]
  · rw [heq, Nat.mod_self, Nat.mod_eq_of_lt (by omega)]; omega

/-! ### Which pieces of a sequence enable a row -/

theorem row_notMem_wireBlank (q : Nat) (v : Bool) (n first : Nat) : Event.row q v ∉ wireBlank n first := by simp [wireBlank]

theorem row_notMem_wireConfigData (q : Nat) (v : Bool) (w : Word) : Event.row q v ∉ wireConfigData w := by
  simp [wireConfigData]

theorem row_notMem_configEvents (q : Nat) (v : Bool) (w : Word) : Event.row q v ∉ configEvents w := by
  simp [configEvents, row_notMem_wireBlank, row_notMem_wireConfigData]

theorem rowOn_notMem_rowsOffEvents (q : Nat) (c : Config) : Event.row q true ∉ rowsOffEvents c := by simp [rowsOffEvents]

/-- An admitted tick enables the row it transfers (R177). -/
theorem rowOn_mem_refreshEvents (s : State) : Event.row s.rowIdx true ∈ refreshEvents s := by simp [refreshEvents]

/-! ### Packed words -/

theorem onlyColourBits_writeLed (d : Device) (pos : Position) (color : Color) (n : Nat) {m : Mem Word}
    (hm : ∀ a, onlyColourBits d.toConfig (Mem.read 0 m a)) (a : Nat) :
    onlyColourBits d.toConfig (Mem.read 0 (writeLed d pos color n m) a) := by
  induction n with
  | zero => exact hm a
  | succ n ih =>
    rw [writeLed_succ, Mem.read_write]
    split
    · exact onlyColourBits_encWord _ _ _
    · exact ih

/-- A frame written over words of that form holds only words of that form (R39 (g), R86). -/
theorem onlyColourBits_writeFrame (d : Device) (fb : Mem Color) (n : Nat) {m : Mem Word}
    (hm : ∀ a, onlyColourBits d.toConfig (Mem.read 0 m a)) (a : Nat) :
    onlyColourBits d.toConfig (Mem.read 0 (writeFrame d fb n m) a) := by
  induction n generalizing a with
  | zero => exact hm a
  | succ n ih => rw [writeFrame_succ]; exact onlyColourBits_writeLed _ _ _ _ ih a

/-! ### The memories -/

/-- Every operation keeps the memories canonical. `ROWIDX` is the row line that a tick lists. -/
theorem Effect.memoryOk {i : Instr} {s t : State} (h : Effect i s t) (hm : MemoryOk s) (hr : s.rowIdx < s.conf.rowCount) :
    MemoryOk t := by
  cases h with
  | refreshed =>
    rw [refresh_eq]
    exact { hm with rowEnWf := Mem.wf_write s.rowIdx true (wf_rowsOff _ hm.rowEnWf)
                    rowEnRange := Mem.inRange_write (dflt := false) true hr (inRange_rowsOff (Nat.le_refl _) hm.rowEnRange) }
  | started =>
    rw [startUp_eq]
    exact { hm with rbWf := rfl, rbRange := rfl, rowEnWf := wf_rowsOff _ hm.rowEnWf
                    rowEnRange := inRange_rowsOff (Nat.le_refl _) hm.rowEnRange }
  | flushed =>
    exact { hm with rbWf := wf_writeFrame _ _ _ rfl, rbRange := inRange_writeFrame _ _ (Nat.le_refl _) rfl }
  | colorSet _ _ _ _ hx => exact { hm with fbWf := Mem.wf_write _ _ hm.fbWf, fbRange := Mem.inRange_write _ hx hm.fbRange }
  | allColorsSet =>
    rw [fillFb_eq]
    exact { hm with fbWf := wf_fillMem _ _ hm.fbWf, fbRange := inRange_fillMem _ (Nat.le_refl _) hm.fbRange }
  | gainWritten | configWritten => rw [configWrite_eq]; exact { hm with }
  | pulsed => rw [pulse_eq]; exact { hm with }
  | rowTransferred => rw [transferRow_eq]; exact { hm with }
  | latched => rw [globalLatch_eq]; exact { hm with }
  | countersReset => rw [pwmReset_eq]; exact { hm with }
  | raised | ignored | lookedUp | encoded => exact { hm with }

/-! ### The other clauses, where an operation moves what they speak of -/

/-- A tick counts the row it transferred, so `PENDING` and `PEND_LEFT` go on telling the same (R39 (e), R181). -/
theorem alwaysInv_refresh {s : State} (h : AlwaysInv s) (ht : s.tickEn = true) : AlwaysInv (refresh s) := by
  have hi : s.inited = true := h.tickEnIff ▸ ht
  rw [refresh_eq]
  refine { h with seqIdle := rfl, rowIdxInRange := nextRow_lt .., pendingIff := ?_, pendLeftInRange := ?_
                  quietBeforeInit := fun hf => absurd hi (by simpa using hf) }
  · cases hp : s.pending with
    | false => simpa [hp] using h.pendingIff
    | true => simp
  · have hle := h.pendLeftInRange
    show (if s.pending then s.pendLeft - 1 else s.pendLeft) ≤ s.conf.rowCount
    split <;> omega

/-- After a tick the one enabled row is the row before `ROWIDX`, and its row event is on the trace (R39 (c)). -/
theorem initedInv_refresh {s : State} (h : InitedInv s) (hm : MemoryOk s) (hr : s.rowIdx < s.conf.rowCount) :
    InitedInv (refresh s) where
  clkLow := by rw [refresh_eq]
  leLow := by rw [refresh_eq]
  enabledRow q hq := by
    obtain rfl : q = s.rowIdx := by simpa [rowEnabled_refresh hm] using hq
    rw [refresh_eq]
    exact (previous_nextRow hr).symm
  noneEnabledIff := by
    have hlit : rowEnabled (refresh s) s.rowIdx = true := by simp [rowEnabled_refresh hm]
    have hmem : Event.row s.rowIdx true ∈ (refresh s).trace := by
      rw [refresh_eq]; exact List.mem_append_right _ (rowOn_mem_refreshEvents s)
    exact ⟨fun hn => absurd (hn s.rowIdx) (by simp [hlit]), fun hn => absurd hmem (hn s.rowIdx)⟩
  colourBits := by rw [refresh_eq]; exact h.colourBits
  cfgForm := by rw [refresh_eq]; exact h.cfgForm

theorem alwaysInv_startUp (s : State) : AlwaysInv (startUp s) := by
  rw [startUp_eq]
  exact ⟨rfl, s.conf.rowCount_pos, by simp, Nat.zero_le _, rfl, nofun⟩

/-- INIT makes the clauses of an initialised core true: it disables every row, and no row event enabled one before it (R256). -/
theorem initedInv_startUp {s : State} (hm : MemoryOk s) (hq : s.trace = []) : InitedInv (startUp s) where
  clkLow := by rw [startUp_eq]
  leLow := by rw [startUp_eq]
  enabledRow q hlit := by simp [rowEnabled_startUp hm] at hlit
  noneEnabledIff := by
    have htrace : ∀ q, Event.row q true ∉ (startUp s).trace := by
      simp [startUp_eq, hq, rowOn_notMem_rowsOffEvents, row_notMem_configEvents]
    exact ⟨fun _ => htrace, fun _ => rowEnabled_startUp hm⟩
  colourBits _ _ _ _ := by rw [startUp_eq]; exact onlyColourBits_zero _
  cfgForm := ⟨s.conf.defaultGain, by rw [startUp_eq]⟩

theorem alwaysInv_configWrite {s : State} (h : AlwaysInv s) (hi : s.inited = true) (gain : BitVec 8) :
    AlwaysInv (returnToIdle (configWrite gain s)) := by
  rw [configWrite_eq]
  exact { h with seqIdle := rfl, quietBeforeInit := fun hf => absurd hi (by simpa using hf) }

/-- A configuration write ends with clock and latch low, sends no row event and gives `CFG` its form for the gain (R160). -/
theorem initedInv_configWrite {s : State} (h : InitedInv s) (gain : BitVec 8) :
    InitedInv (returnToIdle (configWrite gain s)) := by
  rw [configWrite_eq]
  exact { h with clkLow := rfl, leLow := rfl, cfgForm := ⟨gain, rfl⟩
                 noneEnabledIff := h.noneEnabledIff.trans (by simp [row_notMem_configEvents]) }

/-! ### One step -/

/-- An operation of a host command or the timer keeps the invariant. -/
theorem Effect.coreInv {i : Instr} {s t : State} (h : Effect i s t) (hi : i.external = true) (hs : CoreInv s) :
    CoreInv t := by
  have hm := h.memoryOk hs.memory hs.always.rowIdxInRange
  cases h with
  | raised | colorSet =>
    exact { hs with memory := hm, always := { hs.always with }, inited := fun h1 => { hs.inited h1 with } }
  | allColorsSet =>
    rw [fillFb_eq] at hm ⊢
    exact { hs with memory := hm, always := { hs.always with }, inited := fun h1 => { hs.inited h1 with } }
  | ignored => exact hs
  | refreshed ht =>
    have h1 : s.inited = true := hs.always.tickEnIff ▸ ht
    exact ⟨by rw [refresh_eq]; exact hs.external, hm, alwaysInv_refresh hs.always ht,
      fun _ => initedInv_refresh (hs.inited h1) hs.memory hs.always.rowIdxInRange⟩
  | started h0 =>
    exact ⟨by rw [startUp_eq]; exact hs.external, hm, alwaysInv_startUp s,
      fun _ => initedInv_startUp hs.memory (hs.always.quietBeforeInit h0).1⟩
  | flushed h1 =>
    have hbits := onlyColourBits_writeFrame s.conf s.fb s.conf.ledCount (m := []) fun _ => onlyColourBits_zero _
    exact { hs with
      memory := hm
      always := { hs.always with
        seqIdle := rfl, pendingIff := by simp [s.conf.rowCount_pos.ne'], pendLeftInRange := Nat.le_refl _ }
      inited := fun _ => { hs.inited h1 with colourBits := fun row slot _ _ => hbits (rbAddr s.conf.toConfig row slot) } }
  | gainWritten gain8 h1 =>
    exact ⟨by rw [configWrite_eq]; exact hs.external, hm, alwaysInv_configWrite hs.always h1 gain8,
      fun _ => initedInv_configWrite (hs.inited h1) gain8⟩
  | lookedUp | encoded | pulsed | rowTransferred | latched | countersReset | configWritten => cases hi

/-- Taking the next request keeps the invariant. -/
theorem coreInv_taken {s : State} {r : Request} {rest : List Request} (hs : CoreInv s) (hb : s.inbox = r :: rest) :
    CoreInv { s with inbox := rest } :=
  { external := fun q hq => hs.external q (by rw [hb]; exact List.mem_cons_of_mem _ hq)
    memory := { hs.memory with }, always := { hs.always with }, inited := fun h1 => { hs.inited h1 with } }

/-- `STATUS` is in no clause of the invariant. -/
theorem coreInv_status {s : State} (hs : CoreInv s) (st : Status) : CoreInv { s with status := st } :=
  { hs with memory := { hs.memory with }, always := { hs.always with }, inited := fun h1 => { hs.inited h1 with } }

/-- Settles O47: the request a step takes came from outside, so what it starts is an operation of `Effect.coreInv`, or it is an
illegal word, which writes `STATUS` alone (R222). -/
theorem stepKeepsTheInvariant : Obligations.StepKeepsTheInvariant := by
  intro s t hs h
  obtain rfl | ⟨r, rest, hb, ⟨i, hd, he⟩ | ⟨w, -, rfl⟩⟩ := step_cases h
  · exact hs
  · have hr : r.external = true := hs.external r (by simp [hb])
    exact (exec_effect he).coreInv (decode_external hr hd) (coreInv_taken hs hb)
  · exact coreInv_status (coreInv_taken hs hb) _

/-- Settles O46: what reset draws lies in its range, and with `INITED = 0` the clauses of an initialised core say nothing. -/
theorem resetMeetsTheInvariant : Obligations.ResetMeetsTheInvariant := by
  refine fun d u => ⟨nofun, memoryOk_resetWith d u, ?_, nofun⟩
  exact ⟨rfl, Nat.mod_lt _ d.rowCount_pos, by simp [State.resetWith], Nat.zero_le _, rfl, fun _ => ⟨rfl, rfl⟩⟩

end Sys2Proof.Machine

/-! ## Which configurations are accepted (O8)

One equivalence per clause of the check. They speak of any `Config`; what a `Device`, which has passed it, gives stands in
Laws/Device.lean. -/

namespace Sys2Proof.Config

theorem wfGeometry_iff (c : Config) : c.wfGeometry = true ↔ 1 ≤ c.rowCount ∧ 1 ≤ c.channelsPerRow := by
  simp [wfGeometry]

theorem posAt_eq_getElem (c : Config) {i : Nat} (h : i < c.pos.length) : c.posAt i = c.pos[i] := by
  simp [posAt, List.getD_eq_getElem?_getD, h]

/-- R57 (b), of the entries of `POS` and of the positions of the LEDs. -/
theorem wfPosRange_iff (c : Config) : c.wfPosRange = true ↔ c.pos.length = c.ledCount ∧
    ∀ i < c.ledCount, (c.posAt i).row < c.rowCount ∧ (c.posAt i).col < c.channelsPerRow := by
  simp only [wfPosRange, Bool.and_eq_true, decide_eq_true_eq, List.all_eq_true]
  refine and_congr_right fun hlen => ?_
  rw [← hlen, List.forall_mem_iff_getElem]
  exact forall₂_congr fun i hi => by rw [c.posAt_eq_getElem hi]

/-- R57 (c): `POS` has no entry twice exactly if no two LEDs share a position. -/
theorem wfPosInjective_iff (c : Config) (hlen : c.pos.length = c.ledCount) : c.wfPosInjective = true ↔
    ∀ i < c.ledCount, ∀ j < c.ledCount, c.posAt i = c.posAt j → i = j := by
  rw [wfPosInjective, decide_eq_true_eq, ← hlen]
  constructor
  · intro hnodup i hi j hj he
    rw [c.posAt_eq_getElem hi, c.posAt_eq_getElem hj] at he
    exact hnodup.getElem_inj_iff.1 he
  · intro hinj
    refine List.nodup_iff_injective_getElem.2 fun i j he => Fin.ext (hinj i i.isLt j j.isLt ?_)
    rw [c.posAt_eq_getElem i.isLt, c.posAt_eq_getElem j.isLt]
    exact he

theorem rowCol_injective : Function.Injective fun p : Position => (p.row, p.col) :=
  fun ⟨_, _⟩ ⟨_, _⟩ h => by simpa using h

/-- Clause (d) of R57 follows from (b) and (c): the LEDs stand at different places of the matrix. -/
theorem ledCount_le_of_posAt (c : Config)
    (hrange : ∀ i < c.ledCount, (c.posAt i).row < c.rowCount ∧ (c.posAt i).col < c.channelsPerRow)
    (hinj : ∀ i < c.ledCount, ∀ j < c.ledCount, c.posAt i = c.posAt j → i = j) :
    c.ledCount ≤ c.rowCount * c.channelsPerRow := by
  have hcard := Finset.card_le_card_of_injOn (s := Finset.range c.ledCount)
    (t := Finset.range c.rowCount ×ˢ Finset.range c.channelsPerRow) (fun i => ((c.posAt i).row, (c.posAt i).col))
    (fun i hi => by simpa using hrange i (Finset.mem_range.1 hi))
    (fun i hi j hj he => hinj i (Finset.mem_range.1 hi) j (Finset.mem_range.1 hj) (rowCol_injective he))
  simpa using hcard

theorem wfGamma_iff (c : Config) : c.wfGamma = true ↔
    c.gamma.length = 256 ∧ c.gamma[0]? = some 0 ∧ c.gamma[255]? = some c.pwmMax ∧
      ∀ (a b : Nat) (x y : Word), a ≤ b → c.gamma[a]? = some x → c.gamma[b]? = some y → x ≤ y := by
  simp only [wfGamma, Bool.and_eq_true, decide_eq_true_eq, Device.nonDecreasing_iff, and_assoc, BitVec.ofNat_eq_ofNat]

theorem wfColourBits_iff (c : Config) : c.wfColourBits = true ↔
    c.rBit < 16 ∧ c.gBit < 16 ∧ c.bBit < 16 ∧ c.rBit ≠ c.gBit ∧ c.rBit ≠ c.bBit ∧ c.gBit ≠ c.bBit := by
  simp only [wfColourBits, Bool.and_eq_true, decide_eq_true_eq, and_assoc]

theorem wfWindows_iff (c : Config) : c.wfWindows = true ↔
    c.defaultGain.toNat < 64 ∧ c.glLatchFrom < 16 ∧ 1 ≤ c.rstHighCycles := by
  simp only [wfWindows, Bool.and_eq_true, decide_eq_true_eq, and_assoc]

theorem wfIndexWidth_iff (c : Config) : c.wfIndexWidth = true ↔ c.ledCount ≤ 65536 := by simp [wfIndexWidth]

end Sys2Proof.Config

namespace Sys2Proof

theorem Device.isSome_ofConfig (c : Config) : (Device.ofConfig c).isSome = true ↔ c.wf = true := by
  unfold Device.ofConfig
  split <;> simp [*]

/-- Settles O8: `Config.wf` clause by clause. The one clause it does not check, (d), is made true by (b) and (c) (log 16). -/
theorem configurationAcceptedExactlyIfWellFormed : Obligations.ConfigurationAcceptedExactlyIfWellFormed := by
  intro c
  simp only [Device.isSome_ofConfig, Config.wf, Bool.and_eq_true, and_assoc, c.wfGeometry_iff, c.wfPosRange_iff,
    c.wfGamma_iff, c.wfColourBits_iff, c.wfWindows_iff, c.wfIndexWidth_iff]
  refine and_congr_right fun _ => and_congr_right fun _ => and_congr_right fun hlen => and_congr_right fun hrange => ?_
  rw [c.wfPosInjective_iff hlen]
  exact and_congr_right fun hinj => (and_iff_right (c.ledCount_le_of_posAt hrange hinj)).symm

end Sys2Proof

/-! ## One step and its operation (O6, O48, O52) -/

namespace Sys2Proof.Machine

open Sys2Proof.Safety

/-- Settles O6, by the equation of a step with a request waiting. -/
theorem stepRunsTheDecodedInstruction : Obligations.StepRunsTheDecodedInstruction := by
  intro s r rest i hb hd
  rw [step_cons hb, hd]

/-- Every operation keeps `ROWIDX` in range: a first INIT and an admitted tick write a row of the device, and nothing else
writes it (R26). -/
theorem Effect.rowIdx_lt {i : Instr} {s t : State} (h : Effect i s t) (hr : s.rowIdx < s.conf.rowCount) :
    t.rowIdx < t.conf.rowCount := by
  cases h with
  | refreshed => rw [refresh_eq]; exact nextRow_lt ..
  | started => rw [startUp_eq]; exact s.conf.rowCount_pos
  | allColorsSet => rw [fillFb_eq]; exact hr
  | gainWritten | configWritten => rw [configWrite_eq]; exact hr
  | pulsed => rw [pulse_eq]; exact hr
  | rowTransferred => rw [transferRow_eq]; exact hr
  | latched => rw [globalLatch_eq]; exact hr
  | countersReset => rw [pwmReset_eq]; exact hr
  | raised | ignored | flushed | colorSet | lookedUp | encoded => exact hr

/-- Settles O48: taking the request and an illegal word touch no memory and not `ROWIDX`, and every operation keeps both. -/
theorem stepKeepsMemoryCanonical : Obligations.StepKeepsMemoryCanonical := by
  intro s t hm hr h
  obtain rfl | ⟨r, rest, -, ⟨i, -, he⟩ | ⟨w, -, rfl⟩⟩ := step_cases h
  · exact ⟨hm, hr⟩
  · have heff := exec_effect he
    exact ⟨heff.memoryOk { hm with } hr, heff.rowIdx_lt hr⟩
  · exact ⟨{ hm with }, hr⟩

/-- Settles O52, one effect at a time: its closed form shows every field it leaves alone, and a clause about a field it writes
excludes its operation. An operation that raises is a host command, so the clause on `STATUS` excludes it. -/
theorem onlyTheNamedOperationsWriteEachState : Obligations.OnlyTheNamedOperationsWriteEachState := by
  intro i s t h
  cases exec_effect h with
  | raised _ _ hi ht => simp [hi, ht]
  | ignored | flushed | lookedUp | encoded => simp [Instr.external]
  | colorSet => simp [Instr.external, writeFb]
  | allColorsSet => simp [Instr.external, fillFb_eq]
  | refreshed => simp [refresh_eq]
  | started => simp [Instr.external, startUp_eq]
  | gainWritten => simp [Instr.external, configWrite_eq, returnToIdle]
  | configWritten => simp [configWrite_eq]
  | pulsed => simp [pulse_eq]
  | rowTransferred => simp [transferRow_eq]
  | latched => simp [globalLatch_eq]
  | countersReset => simp [pwmReset_eq]

end Sys2Proof.Machine

/-! ## What FLUSH puts into the RowBuffers, and when a tick sees it (O17, O36) -/

namespace Sys2Proof.Machine

open Sys2Proof.Safety

/-- Each colour bit of a packed word is the plane of its own GammaValue: the three places are distinct (R57 (f), R86, R130). -/
theorem colourBits_encWord (d : Device) (v : Color) (p : Nat) :
    (encWord d.toConfig v p).getLsbD d.rBit = (gammaAt d.toConfig v.r).getLsbD (15 - p) ∧
    (encWord d.toConfig v p).getLsbD d.gBit = (gammaAt d.toConfig v.g).getLsbD (15 - p) ∧
    (encWord d.toConfig v p).getLsbD d.bBit = (gammaAt d.toConfig v.b).getLsbD (15 - p) := by
  obtain ⟨hr, hg, hb, hrg, hrb, hgb⟩ := d.colourBits
  rw [getLsbD_encWord _ _ _ _ hr, getLsbD_encWord _ _ _ _ hg, getLsbD_encWord _ _ _ _ hb]
  simp [plane, hrg, hrb, hgb, hrg.symm, hrb.symm, hgb.symm]

/-- After a FLUSH each slot of an LED holds the packed word of its Color (R131). -/
theorem readRb_flush_mapped {s t : State} (hs : s.inited = true) (h : exec .flush s = .next t) {i p : Nat}
    (hi : i < s.conf.ledCount) (hp : p < 16) :
    readRb t (s.conf.posAt i).row ((s.conf.posAt i).col * 16 + p) = encWord s.conf.toConfig (readFb s i) p := by
  obtain rfl := Host.Outcome.next.inj ((execFlush_eq s).symm.trans h)
  rw [if_neg (by simp [hs])]
  exact read_writeFrame_mapped s.conf s.fb (Nat.le_refl _) [] hi hp

/-- After a FLUSH a slot that no LED maps to is all off (R137). -/
theorem readRb_flush_unmapped {s t : State} (hs : s.inited = true) (h : exec .flush s = .next t) {row col p : Nat}
    (hc : col < s.conf.channelsPerRow) (hp : p < 16) (hno : ∀ i < s.conf.ledCount, s.conf.posAt i ≠ ⟨row, col⟩) :
    readRb t row (col * 16 + p) = 0 := by
  obtain rfl := Host.Outcome.next.inj ((execFlush_eq s).symm.trans h)
  rw [if_neg (by simp [hs])]
  exact read_writeFrame_unmapped s.conf s.fb (Nat.le_refl _) [] hc hp hno

/-- What FLUSH puts into a row depends on the Colors of that row's LEDs only. -/
theorem readRb_flush_congr {s t s' t' : State} (hs : s.inited = true) (ht : t.inited = true) (hconf : s.conf = t.conf)
    (hs' : exec .flush s = .next s') (ht' : exec .flush t = .next t') {row slot : Nat}
    (hfb : ∀ i < s.conf.ledCount, (s.conf.posAt i).row = row → readFb t i = readFb s i)
    (hslot : slot < s.conf.channelsPerRow * 16) : readRb t' row slot = readRb s' row slot := by
  obtain ⟨col, p, hc, hp, rfl⟩ : ∃ col p, col < s.conf.channelsPerRow ∧ p < 16 ∧ slot = col * 16 + p :=
    ⟨slot / 16, slot % 16, by omega, by omega, by omega⟩
  by_cases hled : ∃ i < s.conf.ledCount, s.conf.posAt i = ⟨row, col⟩
  · obtain ⟨i, hi, hpos⟩ := hled
    have hws := readRb_flush_mapped hs hs' hi hp
    have hwt := readRb_flush_mapped ht ht' (hconf ▸ hi) hp
    rw [← hconf, hpos] at hwt
    rw [hpos] at hws
    rw [hws, hwt, hfb i hi (by rw [hpos])]
  · have hno : ∀ i < s.conf.ledCount, s.conf.posAt i ≠ ⟨row, col⟩ := fun i hi hpos => hled ⟨i, hi, hpos⟩
    rw [readRb_flush_unmapped hs hs' hc hp hno, readRb_flush_unmapped ht ht' (hconf ▸ hc) hp (hconf ▸ hno)]

/-- Settles O17: the first clause (P2) reads the packed word bit by bit, the second is O52 for SET_COLOR, the third (P3) holds
because a row depends on its own LEDs only, and the last is the unmapped slot's. -/
theorem flushRoundTripAndRowIsolation : Obligations.FlushRoundTripAndRowIsolation := by
  refine ⟨?_, ?_, ?_, ?_⟩
  · intro s t hs h i hi p hp
    rw [readRb_flush_mapped hs h hi hp]
    exact ⟨_, _, _, s.conf.gammaAt_eq _, s.conf.gammaAt_eq _, s.conf.gammaAt_eq _, colourBits_encWord ..⟩
  · intro s t index r g b h
    obtain ⟨-, -, -, hrb, -⟩ := onlyTheNamedOperationsWriteEachState _ s t h
    exact hrb nofun nofun
  · intro s t s' t' row hs ht hconf hfb hs' ht' row' slot _ hne hslot
    exact readRb_flush_congr hs ht hconf hs' ht' (fun i hi hrow => hfb i hi (hrow ▸ hne)) hslot
  · intro s t hs h row col p _ hc hp hno
    exact readRb_flush_unmapped hs h hc hp hno

/-- Settles O36: whether a tick is admitted, and which events it then emits, are functions of the five alone. -/
theorem tickEventsDependOnRowBuffersOnly : Obligations.TickEventsDependOnRowBuffersOnly := by
  intro s t hconf hrb hrow htick hseq
  rw [tickEvents_eq, tickEvents_eq, refreshEvents_congr hconf hrb hrow, htick, hseq]

end Sys2Proof.Machine

/-! ## Decoding and encoding are inverse (O1 to O5)

A command word is taken apart into its five fields (R80) once; after that each claim about it is a claim about the fields. -/

namespace Sys2Proof

theorem exists_eq_commandWord (w : CommandWord) : ∃ op idx r g b, w = commandWord op idx r g b :=
  ⟨_, _, _, _, _, (commandWord_eta w).symm⟩

/-! ### The words of the ports other than the command port -/

/-- Taking the Encoder's input word apart gives back its four operands (R130). -/
theorem decodeEncoder_encoderWord (r g b : Intensity) (p : BitVec 4) :
    decodeEncoder (encoderWord r g b p) = .enc r g b p := by
  unfold decodeEncoder
  congr 1 <;> refine BitVec.eq_of_getLsbD_eq fun k hk => ?_
  · simp [getLsbD_encoderWord, hk, show ¬ 20 + k < 4 by omega, show ¬ 20 + k < 12 by omega]
  · simp [getLsbD_encoderWord, hk, show ¬ 12 + k < 4 by omega, show 12 + k < 20 by omega]
  · simp [getLsbD_encoderWord, hk, show 4 + k < 12 by omega]
  · simp [getLsbD_encoderWord, hk]

/-- The Encoder's input word is made of its four operands. -/
theorem encoderWord_eta (w : BitVec 28) :
    encoderWord (w.extractLsb' 20 8) (w.extractLsb' 12 8) (w.extractLsb' 4 8) (w.extractLsb' 0 4) = w := by
  refine BitVec.eq_of_getLsbD_eq fun k hk => ?_
  rw [getLsbD_encoderWord]
  simp only [BitVec.getLsbD_extractLsb']
  split
  · simp [*]
  split
  · simp [show 4 + (k - 4) = k by omega, show k - 4 < 8 by omega]
  split
  · simp [show 12 + (k - 12) = k by omega, show k - 12 < 8 by omega]
  · simp [show 20 + (k - 20) = k by omega, show k - 20 < 8 by omega]

/-- Taking the four levels of a cycle apart gives them back (R88). -/
theorem decodePulse_pulseWord : ∀ r g b le : Bool, decodePulse (pulseWord r g b le) = .pulse r g b le := by decide

/-- The word of a cycle is made of its four levels. -/
theorem pulseWord_eta : ∀ w : BitVec 4, pulseWord (w.getLsbD 3) (w.getLsbD 2) (w.getLsbD 1) (w.getLsbD 0) = w := by decide

/-! ### The two directions of the round trip -/

theorem decode_encode (i : Instr) : decode (encode i) = .ok i := by
  cases i with
  | init | flush | setColor | setColorAll | wrcfg => simp [encode, decode, decodeCommand_commandWord]
  | enc r g b p => exact congrArg Except.ok (decodeEncoder_encoderWord r g b p)
  | pulse r g b le => exact congrArg Except.ok (decodePulse_pulseWord r g b le)
  | tick | lookup | rowTransfer | globalLatch | pwmReset | configWrite => rfl

/-- Settles O4, one operation at a time: a command word by its fields (R81), the rest by the operand bits of its
port (log 8). -/
theorem decodeOfEncodeIsTheInstruction : Obligations.DecodeOfEncodeIsTheInstruction := decode_encode

/-- The row that a command word selects fixes every field that is no operand of it, so its operands make up the word again. -/
theorem encode_of_decodeCommand {w : CommandWord} {i : Instr} (h : decodeCommand w = .ok i) : encode i = .command w := by
  obtain ⟨op, idx, r, g, b, rfl⟩ := exists_eq_commandWord w
  rw [decodeCommand_commandWord] at h
  split at h
  · next hf => obtain ⟨rfl, rfl, rfl, rfl, rfl⟩ := hf; cases h; rfl
  split at h
  · next hf => obtain ⟨rfl, rfl, rfl, rfl, rfl⟩ := hf; cases h; rfl
  split at h
  · next hf => obtain rfl := hf; cases h; rfl
  split at h
  · next hf => obtain ⟨rfl, rfl⟩ := hf; cases h; rfl
  split at h
  · next hf => obtain ⟨rfl, rfl, rfl, rfl⟩ := hf; cases h; rfl
  · cases h

/-- Settles O5: a request other than a command word carries nothing but its operands. -/
theorem encodeOfDecodedIsTheRequest : Obligations.EncodeOfDecodedIsTheRequest := by
  intro q i h
  cases q with
  | command w => exact encode_of_decodeCommand h
  | encoder w => cases h; exact congrArg Request.encoder (encoderWord_eta w)
  | pulse w => cases h; exact congrArg Request.pulse (pulseWord_eta w)
  | tick | rom | rowTransfer | globalLatch | pwmReset | configWrite => cases h; rfl

/-! ### Words that select a row, and words that select none (R81, R83) -/

/-- A row that selects a word fixes the word's operation code and reserved fields; with those known the first row to select it
is found, and it is that row. -/
theorem decodeCommand_of_selects (w : CommandWord) :
    (CommandRow.init.selects w = true → decodeCommand w = .ok .init) ∧
    (CommandRow.flush.selects w = true → decodeCommand w = .ok .flush) ∧
    (CommandRow.setColor.selects w = true → decodeCommand w =
      .ok (.setColor (CommandWord.idx w) (CommandWord.r w) (CommandWord.g w) (CommandWord.b w))) ∧
    (CommandRow.setColorAll.selects w = true → decodeCommand w =
      .ok (.setColorAll (CommandWord.r w) (CommandWord.g w) (CommandWord.b w))) ∧
    (CommandRow.wrcfg.selects w = true → decodeCommand w = .ok (.wrcfg (CommandWord.b w))) := by
  obtain ⟨op, idx, r, g, b, rfl⟩ := exists_eq_commandWord w
  simp only [selects_init, selects_flush, selects_setColor, selects_setColorAll, selects_wrcfg, idx_commandWord,
    r_commandWord, g_commandWord, b_commandWord, decide_eq_true_eq, decodeCommand_commandWord]
  refine ⟨?_, ?_, ?_, ?_, ?_⟩
  · rintro ⟨rfl, rfl, rfl, rfl, rfl⟩; rfl
  · rintro ⟨rfl, rfl, rfl, rfl, rfl⟩; rfl
  · rintro rfl; rfl
  · rintro ⟨rfl, rfl⟩; rfl
  · rintro ⟨rfl, rfl, rfl, rfl⟩; rfl

/-- Settles O2: a masked word equal to a row's pattern is a word that the row selects. -/
theorem wordSelectingARowDecodesToIt : Obligations.WordSelectingARowDecodesToIt := by
  intro w
  obtain ⟨hinit, hflush, hset, hall, hcfg⟩ := decodeCommand_of_selects w
  exact ⟨fun h => hinit (decide_eq_true h), fun h => hflush (decide_eq_true h), fun h => hset (decide_eq_true h),
    fun h => hall (decide_eq_true h), fun h => hcfg (decide_eq_true h)⟩

/-- A word that selects no row is rejected (R83). -/
theorem decodeCommand_of_selects_none {w : CommandWord} (h : ∀ row ∈ CommandRow.all, row.selects w = false) :
    decodeCommand w = .error (rejectCommand w) := by
  simp only [CommandRow.all, List.forall_mem_cons] at h
  obtain ⟨hinit, hflush, hset, hall, hcfg, -⟩ := h
  simp [decodeCommand, hinit, hflush, hset, hall, hcfg]

end Sys2Proof

namespace Sys2Proof.Machine

/-- A step with an illegal word takes it and raises `ILLEGAL_COMMAND`, and that is all (R222). -/
theorem step_of_illegal {s : State} {w : CommandWord} {rest : List Request} {e : Reject} (hb : s.inbox = .command w :: rest)
    (hd : decodeCommand w = .error e) :
    step s = .next { s with inbox := rest, status := ⟨true, 4, CommandWord.illegalInfo w⟩ } := by
  rw [step_cons hb, show decode (.command w) = .error e from hd]
  rfl

/-- Settles O3: the five premises say that no row of R81 selects the word. -/
theorem illegalWordRaisesIllegalCommand : Obligations.IllegalWordRaisesIllegalCommand := by
  intro s w rest hb hinit hflush hset hall hcfg
  refine step_of_illegal hb (decodeCommand_of_selects_none ?_)
  simp only [CommandRow.all, List.forall_mem_cons]
  exact ⟨decide_eq_false hinit, decide_eq_false hflush, decide_eq_false hset, decide_eq_false hall, decide_eq_false hcfg,
    nofun⟩

end Sys2Proof.Machine

namespace Sys2Proof

/-- Settles O1: nine closed words, evaluated. -/
theorem tableWordsDecode : Obligations.TableWordsDecode := by
  unfold Obligations.TableWordsDecode
  decide

end Sys2Proof

/-! ## SET_COLOR_ALL is the sequence of SET_COLORs (O14) -/

namespace Sys2Proof.Machine

open Sys2Proof.Safety

/-- The requests that set the LEDs `is` to one Color (R97). -/
def setColorRequests (v : Color) (is : List Nat) : List Request :=
  is.map fun i => encode (.setColor (BitVec.ofNat 16 i) v.r v.g v.b)

/-- A run whose first request is the encoding of an operation begins with that operation. -/
theorem run_load_encode {i : Instr} {rest : List Request} {s t : State} (h : exec i (load rest s) = .next t) (n : Nat) :
    Host.Core.run Sys2Proof.core (n + 1) (load (encode i :: rest) s) = Host.Core.run Sys2Proof.core n t :=
  run_next ((stepRunsTheDecodedInstruction (load (encode i :: rest) s) _ rest i rfl (decode_encode i)).trans h) n

/-- SET_COLOR of an LED of the device, whose index fits the field of the command word (R57 (g), R121). -/
theorem exec_setColor_ofNat {s : State} (hs : s.inited = true) {i : Nat} (hi : i < s.conf.ledCount) (v : Color) :
    exec (.setColor (BitVec.ofNat 16 i) v.r v.g v.b) s = .next (writeFb i v s) := by
  have hwidth : (BitVec.ofNat 16 i).toNat = i := by
    have hle := s.conf.ledCount_le
    rw [BitVec.toNat_ofNat, Nat.mod_eq_of_lt (by omega)]
  simp [exec, execSetColor, hs, indexValid, hwidth, hi]

/-- SET_COLOR before INIT, whatever its operands (R121). -/
theorem exec_setColor_of_not_inited {s : State} (hs : s.inited = false) (index : BitVec 16) (r g b : Intensity) :
    exec (.setColor index r g b) s = .next (raise .notInitialized 0 s) := by
  simp [exec, execSetColor, hs]

/-- After INIT the SET_COLORs write their elements, one after the other. -/
theorem run_setColorRequests (v : Color) (is : List Nat) {s : State} (hs : s.inited = true)
    (his : ∀ i ∈ is, i < s.conf.ledCount) :
    Host.Core.run Sys2Proof.core is.length (load (setColorRequests v is) s) =
      .next (is.foldl (fun s i => writeFb i v s) (load [] s)) := by
  induction is generalizing s with
  | nil => rfl
  | cons i is ih =>
    rw [List.forall_mem_cons] at his
    have hexec := exec_setColor_ofNat (s := load (setColorRequests v is) s) hs his.1 v
    exact (run_load_encode hexec is.length).trans (ih (s := writeFb i v s) hs his.2)

/-- Before INIT each of them raises the same error, so one or more of them raise it once. -/
theorem run_setColorRequests_of_not_inited (v : Color) (i : Nat) (is : List Nat) {s : State} (hs : s.inited = false) :
    Host.Core.run Sys2Proof.core (is.length + 1) (load (setColorRequests v (i :: is)) s) =
      .next (raise .notInitialized 0 (load [] s)) := by
  induction is generalizing i s with
  | nil => exact run_load_encode (exec_setColor_of_not_inited (s := load [] s) hs ..) 0
  | cons j is ih =>
    have hexec := exec_setColor_of_not_inited (s := load (setColorRequests v (j :: is)) s) hs (BitVec.ofNat 16 i) v.r v.g v.b
    exact (run_load_encode hexec _).trans (ih j (s := raise .notInitialized 0 s) hs)

/-- Settles O14: after INIT the run is SET_COLOR_ALL's own loop; before it, both raise NOT_INITIALIZED if there is an LED. -/
theorem setColorAllIsTheSequenceOfSetColors : Obligations.SetColorAllIsTheSequenceOfSetColors := by
  intro s t r g b hled hb h
  have hload : load [] s = s := by rw [← hb]; rfl
  obtain rfl := Host.Outcome.next.inj ((execSetColorAll_eq r g b s).symm.trans h)
  cases hs : s.inited with
  | true =>
    have hrun := run_setColorRequests ⟨r, g, b⟩ (List.range s.conf.ledCount) hs fun _ => List.mem_range.1
    rwa [List.length_range, hload] at hrun
  | false =>
    obtain ⟨n, hn⟩ := Nat.exists_eq_succ_of_ne_zero (hled.resolve_left (by simp [hs])).ne'
    have hrun := run_setColorRequests_of_not_inited ⟨r, g, b⟩ 0 ((List.range n).map Nat.succ) hs
    rw [← List.range_succ_eq_map, hload, List.length_map, List.length_range] at hrun
    rw [hn]
    exact hrun

end Sys2Proof.Machine

/-! ## The ConfigRegister (O26, O27) -/

namespace Sys2Proof.Machine

/-- Masking keeps the low six bits of a gain (R82). -/
theorem getLsbD_maskedGain (gain : BitVec 8) (k : Nat) :
    (gain &&& 0b111111#8).getLsbD k = (decide (k < 6) && gain.getLsbD k) := by
  rw [show 0b111111#8 = (BitVec.allOnes 6).setWidth 8 from rfl, BitVec.getLsbD_and, BitVec.getLsbD_setWidth,
    BitVec.getLsbD_allOnes]
  by_cases hk : k < 8
  · simp [hk, Bool.and_comm]
  · simp [BitVec.getLsbD_of_ge gain k (by omega)]

/-- Bit `j` of the register's value: the template's, OR'd in 9:4 with a bit of the gain (R87). -/
theorem getLsbD_configValue (base : Word) (gain : BitVec 8) (j : Nat) :
    (configValue base gain).getLsbD j = (decide (4 ≤ j ∧ j < 10) && gain.getLsbD (j - 4) || base.getLsbD j) := by
  simp only [configValue, BitVec.getLsbD_or, BitVec.getLsbD_shiftLeft, BitVec.getLsbD_setWidth, getLsbD_maskedGain]
  by_cases hlow : j < 4
  · simp [hlow]
  by_cases hhigh : j < 10
  · simp [hlow, hhigh, show 4 ≤ j by omega, show j < 16 by omega, show j - 4 < 16 by omega, show j - 4 < 6 by omega]
  · simp [hhigh, show ¬ j - 4 < 6 by omega]

/-- Settles O26, bit by bit: positions 10 and up and below 4 lie outside the gain's. -/
theorem configRegisterHasItsFields : Obligations.ConfigRegisterHasItsFields := by
  intro s t gain h
  obtain rfl : configWrite gain s = t := Host.Outcome.next.inj h
  rw [configWrite_eq]
  refine ⟨BitVec.eq_of_getLsbD_eq fun k hk => ?_, BitVec.eq_of_getLsbD_eq fun k hk => ?_,
    BitVec.eq_of_getLsbD_eq fun k hk => ?_⟩
  · simp [getLsbD_configValue]
  · simp [getLsbD_configValue, hk, show 4 + k < 10 by omega]
  · simp [getLsbD_configValue, show ¬ 4 ≤ k by omega]

/-- The register's value reads its gain masked (R82). -/
theorem configValue_congr (base : Word) {gain gain' : BitVec 8} (h : gain &&& 0x3F#8 = gain' &&& 0x3F#8) :
    configValue base gain = configValue base gain' := by
  rw [configValue, h, ← configValue]

/-- A configuration write uses its gain in the register's value only (R160, R161 (e)). -/
theorem configWrite_congr {gain gain' : BitVec 8} (h : gain &&& 0x3F#8 = gain' &&& 0x3F#8) (s : State) :
    configWrite gain s = configWrite gain' s := by
  rw [configWrite_eq, configWrite_eq, configValue_congr _ h]

/-- Settles O27: both operations are one configuration write, WRCFG after its check (R205). -/
theorem upperGainBitsAreIgnored : Obligations.UpperGainBitsAreIgnored := by
  intro s gain gain' h
  have hwrite := configWrite_congr h s
  refine ⟨congrArg Host.Outcome.next hwrite, ?_⟩
  show execWrcfg gain s = execWrcfg gain' s
  rw [execWrcfg_eq, execWrcfg_eq, hwrite]

end Sys2Proof.Machine

/-! ## The shape of the bursts (O28) -/

namespace Sys2Proof.Machine

open Sys2Proof.Safety

/-- A burst given by cycle index ends in a latch run of `m` if its cycles have the latch raised from index `n - m` on (R94). -/
theorem endsInLatchRun_map_range {n m : Nat} {f : Nat → Event} (hm : m ≤ n)
    (hf : ∀ k < n, ∃ r g b, f k = .shift r g b (decide (n - m ≤ k))) : EndsInLatchRun n m ((List.range n).map f) := by
  refine ⟨by simp, hm, fun k hk => ?_⟩
  obtain ⟨r, g, b, he⟩ := hf k hk
  exact ⟨r, g, b, by simp [hk, he]⟩

theorem endsInLatchRun_wireBlank {n first : Nat} (h : first ≤ n) : EndsInLatchRun n (n - first) (wireBlank n first) :=
  endsInLatchRun_map_range (Nat.sub_le ..) fun _ _ => ⟨_, _, _, by rw [Nat.sub_sub_self h]⟩

theorem endsInLatchRun_wireConfigData (v : Word) : EndsInLatchRun 16 11 (wireConfigData v) :=
  endsInLatchRun_map_range (by decide) fun _ _ => ⟨_, _, _, rfl⟩

/-- A row transfer raises the latch in its last cycle alone (R89, R152); it has a cycle, since a row has a column. -/
theorem endsInLatchRun_wireRow (s : State) (row : Nat) :
    EndsInLatchRun (s.conf.channelsPerRow * 16) 1 (wireRow s row) := by
  have hpos := s.conf.channels_pos
  refine endsInLatchRun_map_range (by omega) fun k hk => ⟨_, _, _, congrArg _ (decide_eq_decide.2 ?_)⟩
  omega

/-- Settles O28: the closed form of each sequence shows its events, and each burst its length and latch run. -/
theorem eachBurstEndsInOneLatchRun : Obligations.EachBurstEndsInOneLatchRun := by
  intro s
  obtain ⟨-, hlatch, -⟩ := s.conf.windows
  refine ⟨fun row hrow => ⟨_, wireRow s row, if_pos hrow, by rw [transferRow_eq], endsInLatchRun_wireRow s row⟩,
    ⟨_, _, rfl, by rw [globalLatch_eq], endsInLatchRun_wireBlank (by omega)⟩,
    ⟨_, _, rfl, by rw [pwmReset_eq], ?_⟩,
    fun gain => ⟨_, wireBlank 15 2, _, rfl, by rw [configWrite_eq, List.append_assoc]; rfl,
      endsInLatchRun_wireBlank (by decide), endsInLatchRun_wireConfigData _⟩⟩
  simpa using endsInLatchRun_wireBlank (n := 3 + s.conf.rstHighCycles) (first := 3) (by omega)

end Sys2Proof.Machine

/-! ## The gamma table (O9, O10) -/

namespace Sys2Proof.Device

/-- No entry exceeds the last one, `PWM_MAX` (R111). -/
theorem gammaAt_le_pwmMax (d : Device) (v : Intensity) : Machine.gammaAt d.toConfig v ≤ d.pwmMax := by
  have hlast : v ≤ 255 := BitVec.le_def.2 (Nat.le_of_lt_succ v.isLt)
  simpa only [gammaAt_255] using d.gammaAt_le_gammaAt hlast

end Sys2Proof.Device

namespace Sys2Proof.Machine

/-- LOOKUP run as a step writes `GAMMA[v]` to `result`, and nothing else (R110). -/
theorem exec_lookup (v : Intensity) (s : State) :
    exec (.lookup v) s = .next { s with result := gammaAt s.conf.toConfig v } := rfl

/-- Settles O10: both answers are entries of one table, which rises (R111 (d)). -/
theorem lookupIsMonotone : Obligations.LookupIsMonotone := by
  intro s t s' t' a b hconf hab hs ht
  rw [exec_lookup] at hs ht
  cases hs
  cases ht
  simpa only [hconf] using t.conf.gammaAt_le_gammaAt hab

/-- Settles O9: the answer is the ROM's entry, and R111 fixes the two end entries and bounds the rest. -/
theorem lookupAnswersTheRomEntry : Obligations.LookupAnswersTheRomEntry := by
  intro s v
  refine ⟨gammaAt s.conf.toConfig v, exec_lookup v s, s.conf.gammaAt_eq v, ?zero, ?last, s.conf.gammaAt_le_pwmMax v⟩
  case zero => rintro rfl; exact s.conf.gammaAt_zero
  case last => rintro rfl; exact s.conf.gammaAt_255

end Sys2Proof.Machine

/-! ## SET_COLOR and SET_COLOR_ALL (O12, O13) -/

namespace Sys2Proof.Machine

/-- Writing what is already stored changes nothing in a canonical memory. -/
theorem Mem.write_eq_self {α : Type} [DecidableEq α] {dflt : α} {m : Mem α} {a : Nat} {v : α} (hm : wf dflt m = true)
    (hv : read dflt m a = v) : write dflt m a v = m := by
  refine ext_of_wf (wf_write a v hm) hm fun b => ?_
  rw [read_write]
  split
  · next hb => rw [hb, hv]
  · rfl

/-- SET_COLOR of an index the device does not have (R121, R218). -/
theorem exec_setColor_of_invalid {s : State} (hs : s.inited = true) {index : BitVec 16} (hx : s.conf.ledCount ≤ index.toNat)
    (r g b : Intensity) : exec (.setColor index r g b) s = .next (raise .invalidIndex index s) := by
  simp [exec, execSetColor_eq, hs, indexValid, hx]

/-- SET_COLOR of an LED of the device (R121). -/
theorem exec_setColor_of_valid {s : State} (hs : s.inited = true) {index : BitVec 16} (hx : index.toNat < s.conf.ledCount)
    (r g b : Intensity) : exec (.setColor index r g b) s = .next (writeFb index.toNat ⟨r, g, b⟩ s) := by
  simp [exec, execSetColor_eq, hs, indexValid, hx]

/-- Settles O12: a case for each outcome of the two checks; the third is a single write of `FB`. -/
theorem setColorWritesOneElementOrRaises : Obligations.SetColorWritesOneElementOrRaises := by
  intro s index r g b
  refine ⟨fun hs => exec_setColor_of_not_inited hs index r g b, fun hs hx => exec_setColor_of_invalid hs hx r g b,
    fun hs hx => ⟨Mem.write Color.black s.fb index.toNat ⟨r, g, b⟩, exec_setColor_of_valid hs hx r g b, ?written, ?others,
      Mem.write_eq_self⟩⟩
  case written => exact Mem.read_write_same ..
  case others => exact fun j hj => Mem.read_write_ne _ _ _ hj

/-- SET_COLOR_ALL before INIT (R123). -/
theorem exec_setColorAll_of_not_inited {s : State} (hs : s.inited = false) (r g b : Intensity) :
    exec (.setColorAll r g b) s = .next (raise .notInitialized 0 s) := by
  simp [exec, execSetColorAll_eq, hs]

/-- SET_COLOR_ALL after INIT writes `FB` and nothing else (R123). -/
theorem exec_setColorAll_of_inited {s : State} (hs : s.inited = true) (r g b : Intensity) :
    exec (.setColorAll r g b) s = .next { s with fb := fillMem s.conf.ledCount ⟨r, g, b⟩ s.fb } := by
  simp [exec, execSetColorAll_eq, hs, fillFb_eq]

/-- Settles O13: after INIT `FB` is filled up to `LED_COUNT`, and a read of it depends on which side of that bound it is. -/
theorem setColorAllWritesEveryElementOrRaises : Obligations.SetColorAllWritesEveryElementOrRaises := by
  intro s r g b
  refine ⟨fun hs => exec_setColorAll_of_not_inited hs r g b,
    fun hs => ⟨fillMem s.conf.ledCount ⟨r, g, b⟩ s.fb, exec_setColorAll_of_inited hs r g b, fun i hi => ?below, fun i hi => ?above⟩⟩
  case below => rw [read_fillMem, if_pos hi]
  case above => rw [read_fillMem, if_neg (Nat.not_lt.2 hi)]; rfl

end Sys2Proof.Machine

/-! ## ENC and FLUSH (O11, O15, O16, O18) -/

namespace Sys2Proof.Machine

open Sys2Proof.Safety

/-- ENC run as a step writes the packed word to `result`, and nothing else (R130). -/
theorem exec_enc (r g b : Intensity) (p : BitVec 4) (s : State) :
    exec (.enc r g b p) s = .next { s with result := encWord s.conf.toConfig ⟨r, g, b⟩ p.toNat } := rfl

/-- Settles O11: each colour bit of the packed word is the plane of its GammaValue, and a packed word has no other bit. -/
theorem encPacksOnePlaneOfEachColour : Obligations.EncPacksOnePlaneOfEachColour := by
  intro s r g b p
  obtain ⟨hr, hg, hb⟩ := colourBits_encWord s.conf ⟨r, g, b⟩ p.toNat
  exact ⟨_, _, _, _, exec_enc r g b p s, s.conf.gammaAt_eq r, s.conf.gammaAt_eq g, s.conf.gammaAt_eq b, hr, hg, hb,
    onlyColourBits_encWord _ _ _⟩

/-- FLUSH before INIT (R131). -/
theorem exec_flush_of_not_inited {s : State} (hs : s.inited = false) :
    exec .flush s = .next (raise .notInitialized 0 s) := by
  simp [exec, execFlush_eq, hs]

/-- FLUSH after INIT builds `RB` anew from `FB`, and what else it writes is `PEND_LEFT`, `PENDING` and `SEQ` (R131). -/
theorem exec_flush_of_inited {s : State} (hs : s.inited = true) :
    exec .flush s = .next { s with rb := writeFrame s.conf s.fb s.conf.ledCount [], pendLeft := s.conf.rowCount,
                                   pending := true, seq := Seq.idle } := by
  simp [exec, execFlush_eq, hs]

/-- Settles O15: after INIT the new `RB` is the frame of `FB` over an empty memory, read slot by slot. -/
theorem flushEncodesTheWholeFrame : Obligations.FlushEncodesTheWholeFrame := by
  refine fun s => ⟨exec_flush_of_not_inited, fun hs =>
    ⟨writeFrame s.conf s.fb s.conf.ledCount [], exec_flush_of_inited hs, ?mapped, ?unmapped⟩⟩
  case mapped => exact fun i hi p hp => read_writeFrame_mapped s.conf s.fb (Nat.le_refl _) [] hi hp
  case unmapped => exact fun row col p _ hc hp hno => read_writeFrame_unmapped s.conf s.fb (Nat.le_refl _) [] hc hp hno

/-- Settles O16: the frame reads the Colors of the LEDs and the configuration, and not the old `RB`. -/
theorem flushDependsOnColoursOnly : Obligations.FlushDependsOnColoursOnly := by
  intro s t s' t' hs ht hconf hfb hs' ht'
  obtain rfl := Host.Outcome.next.inj ((exec_flush_of_inited hs).symm.trans hs')
  obtain rfl := Host.Outcome.next.inj ((exec_flush_of_inited ht).symm.trans ht')
  show writeFrame s.conf s.fb s.conf.ledCount [] = writeFrame t.conf t.fb t.conf.ledCount []
  rw [← hconf]
  exact writeFrame_congr _ _ _ _ _ hfb

/-- Of an idle initialised core whose `RB` is already the frame of its `FB`, FLUSH only marks it pending (R134). -/
theorem exec_flush_of_rb_eq {s : State} (hs : s.inited = true) (hrb : s.rb = writeFrame s.conf s.fb s.conf.ledCount [])
    (hseq : s.seq = Seq.idle) : exec .flush s = .next (markPending s) := by
  rw [exec_flush_of_inited hs, ← hrb, ← hseq]
  rfl

/-! ### What `PENDING` and `PEND_LEFT` cannot influence

`clearPending` forgets the two. Two states it maps to the same state are related, and every operation, every step and every run
keeps the relation: the two decide nothing but their own next values. -/

/-- An outcome with `PENDING` and `PEND_LEFT` forgotten. -/
def forgetPending : Host.Outcome State Fault Refusal → Host.Outcome State Fault Refusal
  | .next s => .next (clearPending s)
  | .fault r => .fault r
  | .refused r => .refused r

/-- An admitted tick uses `PENDING` and `PEND_LEFT` for their next values only (R177, R180). -/
theorem clearPending_refresh (s : State) : clearPending (refresh s) = clearPending (refresh (clearPending s)) := by
  rw [refresh_eq, refresh_eq]
  rfl

/-- A first INIT does not read the two (R201). -/
theorem clearPending_startUp (s : State) : clearPending (startUp s) = clearPending (startUp (clearPending s)) := by
  rw [startUp_eq, startUp_eq]
  rfl

/-- Nor does a configuration write (R160). -/
theorem clearPending_configWrite (gain : BitVec 8) (s : State) :
    clearPending (configWrite gain s) = clearPending (configWrite gain (clearPending s)) := by
  rw [configWrite_eq, configWrite_eq]
  rfl

/-- Nor does SET_COLOR_ALL (R123). -/
theorem clearPending_fillFb (v : Color) (s : State) :
    clearPending (fillFb v s) = clearPending (fillFb v (clearPending s)) := by
  rw [fillFb_eq, fillFb_eq]
  rfl

/-- Two states that one condition chooses are related if the choices are. -/
theorem clearPending_ite {c : Prop} [Decidable c] {a b a' b' : State} (ha : clearPending a = clearPending a')
    (hb : clearPending b = clearPending b') : clearPending (if c then a else b) = clearPending (if c then a' else b') := by
  rw [apply_ite clearPending, apply_ite clearPending, ha, hb]

/-- What an operation does to everything but the two does not depend on them: where it goes on, by its closed form. -/
theorem forgetPending_exec (i : Instr) (s : State) :
    forgetPending (exec i s) = forgetPending (exec i (clearPending s)) := by
  cases i with
  | init =>
    simp only [exec, execInit_eq]
    exact congrArg Host.Outcome.next (clearPending_ite rfl (clearPending_startUp s))
  | flush =>
    simp only [exec, execFlush_eq]
    exact congrArg Host.Outcome.next (clearPending_ite rfl rfl)
  | setColor index r g b =>
    simp only [exec, execSetColor_eq]
    exact congrArg Host.Outcome.next (clearPending_ite rfl (clearPending_ite rfl rfl))
  | setColorAll r g b =>
    simp only [exec, execSetColorAll_eq]
    exact congrArg Host.Outcome.next (clearPending_ite rfl (clearPending_fillFb _ s))
  | wrcfg gain8 =>
    simp only [exec, execWrcfg_eq]
    have hidle := congrArg returnToIdle (clearPending_configWrite gain8 s)
    exact congrArg Host.Outcome.next (clearPending_ite rfl hidle)
  | tick =>
    simp only [exec, execTick_eq]
    exact congrArg Host.Outcome.next (clearPending_ite (clearPending_refresh s) rfl)
  | rowTransfer row =>
    simp only [exec, execRowTransfer, transferRow_eq, clearPending_conf]
    by_cases h : row < s.conf.rowCount
    · rw [if_pos h, if_pos h]; rfl
    · rw [if_neg h, if_neg h]
  | configWrite gain => exact congrArg Host.Outcome.next (clearPending_configWrite gain s)
  | globalLatch => simp only [exec, execGlobalLatch, globalLatch_eq]; rfl
  | pwmReset => simp only [exec, execPwmReset, pwmReset_eq]; rfl
  | lookup | enc | pulse => rfl

/-- Nor does what a step does to everything but the two (R60). -/
theorem forgetPending_step (s : State) : forgetPending (step s) = forgetPending (step (clearPending s)) := by
  cases hb : s.inbox with
  | nil => rw [step_nil hb, step_nil (s := clearPending s) hb]; rfl
  | cons r rest =>
    rw [step_cons hb, step_cons (s := clearPending s) hb]
    cases decode r with
    | ok i => exact forgetPending_exec i { s with inbox := rest }
    | error e => cases r <;> rfl

/-- Outcomes that agree when the two are forgotten are related states or one and the same stop. -/
theorem forgetPending_eq_cases {o o' : Host.Outcome State Fault Refusal} (h : forgetPending o = forgetPending o') :
    (∃ s t, o = .next s ∧ o' = .next t ∧ clearPending s = clearPending t) ∨ o = o' := by
  cases o with
  | next s =>
    cases o' with
    | next t => exact .inl ⟨s, t, rfl, rfl, Host.Outcome.next.inj h⟩
    | fault | refused => cases h
  | fault | refused =>
    cases o' <;> cases h
    exact .inr rfl

/-- Runs of one length from related states end in related states, or stop for the same reason. -/
theorem forgetPending_run (n : Nat) {s t : State} (h : clearPending s = clearPending t) :
    forgetPending (Host.Core.run Sys2Proof.core n s) = forgetPending (Host.Core.run Sys2Proof.core n t) := by
  induction n generalizing s t with
  | zero => exact congrArg Host.Outcome.next h
  | succ n ih =>
    have hstep : forgetPending (step s) = forgetPending (step t) := by
      rw [forgetPending_step s, h, ← forgetPending_step t]
    obtain ⟨s', t', hs, ht, hst⟩ | heq := forgetPending_eq_cases hstep
    · rw [run_next hs, run_next ht]
      exact ih hst
    · simp only [Host.Core.run, show Sys2Proof.core.step s = Sys2Proof.core.step t from heq]

/-- Settles O18: the second FLUSH finds the frame it would build, so it moves only what no later event or call depends on. -/
theorem flushAgainChangesNoPicture : Obligations.FlushAgainChangesNoPicture := by
  intro s t u hs h hu hconf hfb hrb hseq
  obtain rfl := Host.Outcome.next.inj ((exec_flush_of_inited hs).symm.trans h)
  have hflush := exec_flush_of_rb_eq hu (by rw [hrb, hconf, hfb]) hseq
  refine ⟨hflush, fun requests v a b hv ha hb => ?_⟩
  obtain rfl := Host.Outcome.next.inj (hflush.symm.trans hv)
  have hrun := forgetPending_run requests.length (s := load requests (markPending u)) (t := load requests u) rfl
  rw [ha, hb] at hrun
  have hab : clearPending a = clearPending b := Host.Outcome.next.inj hrun
  have htrace := congrArg State.trace hab
  have hpins := congrArg State.pins hab
  exact ⟨htrace, hpins⟩

end Sys2Proof.Machine

/-! ## The tick right after a FLUSH (O37) -/

namespace Sys2Proof.Machine

open Sys2Proof.Safety

/-- Column `col` and plane `p` of a row are sent at place `(CHANNELS_PER_ROW − 1 − col) × 16 + p` of its transfer (R89, R150). -/
theorem getElem_wireRow (s : State) (row : Nat) {col p : Nat} (hc : col < s.conf.channelsPerRow) (hp : p < 16) :
    (wireRow s row)[(s.conf.channelsPerRow - 1 - col) * 16 + p]? = some (rowCycle s row col p).event := by
  have hk : (s.conf.channelsPerRow - 1 - col) * 16 + p < s.conf.channelsPerRow * 16 := by omega
  have hcol : s.conf.channelsPerRow - 1 - ((s.conf.channelsPerRow - 1 - col) * 16 + p) / 16 = col := by omega
  have hplane : ((s.conf.channelsPerRow - 1 - col) * 16 + p) % 16 = p := by omega
  rw [← map_event_rowCycles, List.getElem?_map, getElem_rowCycles s row hk, hcol, hplane, Option.map_some]

/-- In an admitted tick the row transfer comes right after the events that drive the rows off (R177). -/
theorem getElem_refreshEvents (s : State) {k : Nat} (hk : k < s.conf.channelsPerRow * 16) :
    (refreshEvents s)[s.conf.rowCount + k]? = (wireRow s s.rowIdx)[k]? := by
  have hoff : (rowsOffEvents s.conf.toConfig).length = s.conf.rowCount := by simp [rowsOffEvents]
  have hrow : k < (wireRow s s.rowIdx).length := by simpa [wireRow] using hk
  simp only [refreshEvents, List.append_assoc]
  rw [List.getElem?_append_right (by omega), hoff, Nat.add_sub_cancel_left, List.getElem?_append_left hrow]

/-- Of what a tick depends on, FLUSH leaves all but `RB` as it was, and the sequencer idle (R30, R131). -/
theorem flush_frame {s t : State} (hs : s.inited = true) (h : exec .flush s = .next t) :
    t.conf = s.conf ∧ t.rowIdx = s.rowIdx ∧ t.tickEn = s.tickEn ∧ t.seq = Seq.idle := by
  obtain rfl := Host.Outcome.next.inj ((exec_flush_of_inited hs).symm.trans h)
  exact ⟨rfl, rfl, rfl, rfl⟩

/-- The cycle of an LED and a plane after a FLUSH: the plane of its three GammaValues, and the latch in the last one (R131, R150). -/
theorem event_rowCycle_flush {s t : State} (hs : s.inited = true) (h : exec .flush s = .next t) {i p : Nat}
    (hi : i < s.conf.ledCount) (hp : p < 16) :
    (rowCycle t (s.conf.posAt i).row (s.conf.posAt i).col p).event =
      .shift ((gammaAt s.conf.toConfig (readFb s i).r).getLsbD (15 - p))
        ((gammaAt s.conf.toConfig (readFb s i).g).getLsbD (15 - p))
        ((gammaAt s.conf.toConfig (readFb s i).b).getLsbD (15 - p)) (decide ((s.conf.posAt i).col = 0 ∧ p = 15)) := by
  obtain ⟨hconf, -⟩ := flush_frame hs h
  obtain ⟨hr, hg, hb⟩ := colourBits_encWord s.conf (readFb s i) p
  simp only [rowCycle, Cycle.event, slotOf, Config.bitsPerChannel, readRb_flush_mapped hs h hi hp, hconf, hr, hg, hb,
    Nat.reduceEqDiff]

/-- Settles O37: the LED's slots hold its packed words, and the tick sends the slots of `ROWIDX` after the row events. -/
theorem tickAfterFlushSendsTheGammaPlanes : Obligations.TickAfterFlushSendsTheGammaPlanes := by
  intro s t hs htick h i hi hrow p hp
  obtain ⟨hconf, hidx, hten, hseq⟩ := flush_frame hs h
  obtain ⟨-, hcol⟩ := s.conf.posAt_inRange hi
  refine ⟨_, _, _, s.conf.gammaAt_eq _, s.conf.gammaAt_eq _, s.conf.gammaAt_eq _, ?_⟩
  rw [tickEvents_eq, if_pos ⟨hten.trans htick, hseq⟩, ← event_rowCycle_flush hs h hi hp, hrow, ← hidx, ← hconf]
  rw [← hconf] at hcol
  rw [getElem_refreshEvents t (by omega), getElem_wireRow t t.rowIdx hcol hp]

end Sys2Proof.Machine

/-! ## The two traces agree (O49, O50) -/

namespace Sys2Proof.Machine

open Sys2Proof.Safety

/-- A first INIT's calls are sampled as its events: the idle levels it drives first are no event (R147, R201). -/
theorem tracesAgree_startUp {s : State} (ha : TracesAgree s) : TracesAgree (startUp s) := by
  have hs := samples_append samples_idle (samples_append (samples_rowsOff s.conf.toConfig)
    (samples_config (configValue s.conf.configDefaultBase s.conf.defaultGain)))
  exact tracesAgree_append ha (by simp [startUp_eq]) (by simp [startUp_eq]) hs

/-- A configuration write's two bursts are sampled as their cycles (R147, R160). -/
theorem tracesAgree_configWrite {s : State} (ha : TracesAgree s) (gain : BitVec 8) : TracesAgree (configWrite gain s) := by
  rw [configWrite_eq]; exact tracesAgree_append ha rfl rfl (samples_config _)

/-- The sequencer's return to idle records nothing (R30). -/
theorem tracesAgree_returnToIdle {s : State} (ha : TracesAgree s) : TracesAgree (returnToIdle s) := ha

/-- What an operation records on the pin trace is sampled as what it records on the sampled trace: a cycle as its `S` event, a
row event as itself, and each epilogue not at all (R147). -/
theorem Effect.tracesAgree {i : Instr} {s t : State} (h : Effect i s t) (ha : TracesAgree s) : TracesAgree t := by
  cases h with
  | raised | ignored | flushed | colorSet | lookedUp | encoded => exact ha
  | allColorsSet => rw [fillFb_eq]; exact ha
  | started => exact tracesAgree_startUp ha
  | gainWritten gain => exact tracesAgree_returnToIdle (tracesAgree_configWrite ha gain)
  | configWritten gain => exact tracesAgree_configWrite ha gain
  | refreshed => rw [refresh_eq]; exact tracesAgree_append ha rfl rfl (samples_refresh s)
  | pulsed => rw [pulse_eq]; exact tracesAgree_append ha rfl rfl (samples_event _)
  | rowTransferred => rw [transferRow_eq]; exact tracesAgree_append ha rfl rfl (samples_burst _)
  | latched => rw [globalLatch_eq]; exact tracesAgree_append ha rfl rfl (samples_burst _)
  | countersReset => rw [pwmReset_eq]; exact tracesAgree_append ha rfl rfl (samples_burst _)

/-- Settles O50: taking the request and an illegal word record nothing, and every operation keeps the traces agreeing. -/
theorem stepKeepsTheTracesAgreeing : Obligations.StepKeepsTheTracesAgreeing := by
  intro s t ha h
  obtain rfl | ⟨r, rest, -, ⟨i, -, he⟩ | ⟨w, -, rfl⟩⟩ := step_cases h
  · exact ha
  · exact (exec_effect he).tracesAgree ha
  · exact ha

/-- Settles O49: reset leaves both traces empty, and of no calls nothing is sampled. -/
theorem tracesAgreeAfterReset : Obligations.TracesAgreeAfterReset := fun _ _ _ => rfl

end Sys2Proof.Machine

/-! ## The serial operations (O19 to O25)

Each runs its sequence from every state, but ROW_TRANSFER, which checks its operand; the closed form of the sequence then says all
that it does. -/

namespace Sys2Proof.Machine

/-- The data lines keep the levels of a row transfer's last cycle: column 0 and plane 15, slot 15 of the row (R54, R150). -/
theorem rowCycle_last (s : State) (row : Nat) :
    rowCycle s row 0 15 = ⟨(readRb s row 15).getLsbD s.conf.rBit, (readRb s row 15).getLsbD s.conf.gBit,
      (readRb s row 15).getLsbD s.conf.bBit, true⟩ := rfl

/-- ROW_TRANSFER of a row of the device (R150). -/
theorem exec_rowTransfer_of_lt {s : State} {row : Nat} (h : row < s.conf.rowCount) :
    exec (.rowTransfer row) s = .next (transferRow row s) := if_pos h

/-- Settles O21, by the closed form of a row transfer. -/
theorem rowTransferSendsTheRow : Obligations.RowTransferSendsTheRow := by
  intro s row h
  rw [exec_rowTransfer_of_lt h, transferRow_eq, rowCycle_last]

/-- Settles O22: the row fails the operand check, and nothing is transferred (R52). -/
theorem rowTransferOfNoRowFaults : Obligations.RowTransferOfNoRowFaults := fun _ _ h => if_neg (Nat.not_lt.2 h)

/-- Settles O25: the two bursts are one append to each trace in the closed form, and two in the statement. -/
theorem configWriteSendsTheRegister : Obligations.ConfigWriteSendsTheRegister := by
  rintro s gain _ rfl
  show Host.Outcome.next (configWrite gain s) = _
  rw [configWrite_eq]
  simp only [configEvents, configCalls, configValue, List.append_assoc]

/-- Settles O19, by the closed form of PULSE, which holds at either level of `CLK`. -/
theorem pulseIsOneCycle : Obligations.PulseIsOneCycle := fun s r g b le _ => congrArg Host.Outcome.next (pulse_eq r g b le s)

/-- Settles O20: PULSE drives every serial line, so no level from before it is left (R146). -/
theorem pulseIgnoresTheClockLevelBefore : Obligations.PulseIgnoresTheClockLevelBefore := by
  intro s r g b le level
  show Host.Outcome.next (pulse r g b le { s with lines := { s.lines with clk := level } }) = .next (pulse r g b le s)
  rw [pulse_eq, pulse_eq]

/-- Settles O23, by the closed form of the global latch. -/
theorem globalLatchSendsItsBurst : Obligations.GlobalLatchSendsItsBurst := fun s =>
  congrArg Host.Outcome.next (globalLatch_eq s)

/-- Settles O24, by the closed form of the PWM reset. -/
theorem pwmResetSendsItsBurst : Obligations.PwmResetSendsItsBurst := fun s => congrArg Host.Outcome.next (pwmReset_eq s)

end Sys2Proof.Machine

/-! ## One tick (O29 to O31) -/

namespace Sys2Proof.Machine

open Sys2Proof.Safety

/-- A tick on a core that has ticks enabled and is idle is admitted (R175). -/
theorem exec_tick_of_admitted {s : State} (ht : s.tickEn = true) (hs : s.seq = Seq.idle) :
    exec .tick s = .next (refresh s) := by
  rw [exec, execTick_eq, if_pos ⟨ht, hs⟩]

/-- Any other changes nothing (R175, R184). -/
theorem exec_tick_of_not_admitted {s : State} (h : s.tickEn = false ∨ s.seq ≠ Seq.idle) : exec .tick s = .next s := by
  have hn : ¬(s.tickEn = true ∧ s.seq = Seq.idle) := fun ⟨ht, hs⟩ => h.elim (by simp [ht]) (absurd hs)
  rw [exec, execTick_eq, if_neg hn]

/-- Of the rows of the device an admitted tick leaves enabled the one it transferred, whatever was enabled before (R179). -/
theorem rowEnabled_refresh_of_lt {s : State} {q : Nat} (hq : q < s.conf.rowCount) :
    rowEnabled (refresh s) q = decide (q = s.rowIdx) := by
  rw [refresh_eq, rowEnabled, lineLevel, Mem.read_write, read_rowsOff, if_pos hq]
  split <;> simp [*]

/-- Settles O29, by the closed form of an admitted tick. -/
theorem tickRefreshesOneRow : Obligations.TickRefreshesOneRow := by
  refine fun s => ⟨exec_tick_of_not_admitted, fun ht hs _ => ⟨(refresh s).rowEn, ?effect, fun q hq => ?row⟩⟩
  case effect =>
    have hpend : (if s.pending = true ∧ s.pendLeft - 1 = 0 then false else s.pending) =
        (s.pending && decide (s.pendLeft - 1 ≠ 0)) := by cases s.pending <;> simp
    rw [exec_tick_of_admitted ht hs, refresh_eq, hpend]
    simp only [refreshEvents, refreshCalls, nextRow, List.append_assoc]
  case row => exact rowEnabled_refresh_of_lt hq

/-- The shift cycles of an admitted tick: those of its three bursts (R177). -/
def refreshShifts (s : State) : List Event :=
  wireRow s s.rowIdx ++ wireBlank 16 s.conf.glLatchFrom ++ wireBlank (3 + s.conf.rstHighCycles) 3

/-- An admitted tick drives the rows off, shifts, and enables its row (R177, R179). -/
theorem refreshEvents_eq (s : State) :
    refreshEvents s = rowsOffEvents s.conf.toConfig ++ refreshShifts s ++ [.row s.rowIdx true] := by
  simp only [refreshEvents, refreshShifts, List.append_assoc]

/-- The three bursts touch no row line. -/
theorem eq_shift_of_mem_refreshShifts {s : State} {e : Event} (h : e ∈ refreshShifts s) :
    ∃ r g b le, e = .shift r g b le := by
  simp only [refreshShifts, wireRow, wireBlank, List.mem_append, List.mem_map] at h
  obtain (⟨_, -, rfl⟩ | ⟨_, -, rfl⟩) | ⟨_, -, rfl⟩ := h <;> exact ⟨_, _, _, _, rfl⟩

theorem length_refreshShifts (s : State) :
    (refreshShifts s).length = s.conf.channelsPerRow * 16 + 16 + 3 + s.conf.rstHighCycles := by
  simp only [refreshShifts, wireRow, wireBlank, List.length_append, List.length_map, List.length_range]
  omega

/-- In an admitted tick there is a row event for each row driven off and one for the row enabled. -/
theorem countP_refreshEvents_row {p : Event → Bool} (hrow : ∀ q v, p (.row q v) = true)
    (hshift : ∀ r g b le, p (.shift r g b le) = false) (s : State) :
    (refreshEvents s).countP p = s.conf.rowCount + 1 := by
  have hoff : (rowsOffEvents s.conf.toConfig).countP p = s.conf.rowCount := by
    rw [List.countP_eq_length.2 fun e he => ?_]
    · simp [rowsOffEvents]
    · obtain ⟨q, -, rfl⟩ := List.mem_map.1 he
      exact hrow q false
  have hshifts : (refreshShifts s).countP p = 0 := List.countP_eq_zero.2 fun e he => by
    obtain ⟨r, g, b, le, rfl⟩ := eq_shift_of_mem_refreshShifts he
    simp [hshift]
  rw [refreshEvents_eq, List.countP_append, List.countP_append, hoff, hshifts]
  simp [hrow]

/-- Every other event is a cycle of one of its bursts. -/
theorem countP_refreshEvents_shift {p : Event → Bool} (hrow : ∀ q v, p (.row q v) = false)
    (hshift : ∀ r g b le, p (.shift r g b le) = true) (s : State) :
    (refreshEvents s).countP p = (refreshShifts s).length := by
  have hoff : (rowsOffEvents s.conf.toConfig).countP p = 0 := by simp [rowsOffEvents, hrow]
  have hshifts : (refreshShifts s).countP p = (refreshShifts s).length := List.countP_eq_length.2 fun e he => by
    obtain ⟨r, g, b, le, rfl⟩ := eq_shift_of_mem_refreshShifts he
    exact hshift r g b le
  rw [refreshEvents_eq, List.countP_append, List.countP_append, hoff, hshifts]
  simp [hrow]

/-- Settles O30: the row events stand outside the bursts, the shift cycles are the bursts. -/
theorem tickEmitsAFixedNumberOfEvents : Obligations.TickEmitsAFixedNumberOfEvents := by
  refine fun s ht hs => ⟨refresh s, refreshEvents s, exec_tick_of_admitted ht hs, by rw [refresh_eq], ?rows, ?shifts⟩
  case rows => exact countP_refreshEvents_row (fun _ _ => rfl) (fun _ _ _ _ => rfl) s
  case shifts =>
    exact (countP_refreshEvents_shift (fun _ _ => rfl) (fun _ _ _ _ => rfl) s).trans (length_refreshShifts s)

/-- Settles O31: the order of an admitted tick's events, and the one row line it leaves enabled. -/
theorem rowEnablesAreMutuallyExclusive : Obligations.RowEnablesAreMutuallyExclusive := by
  intro s t ht hs h
  obtain rfl := Host.Outcome.next.inj ((exec_tick_of_admitted ht hs).symm.trans h)
  refine ⟨⟨refreshShifts s, fun _ => eq_shift_of_mem_refreshShifts, ?_⟩, fun q hq => ?_⟩
  · rw [refresh_eq, refreshEvents_eq]
    simp only [rowsOffEvents, List.append_assoc]
  · rw [rowEnabled_refresh_of_lt hq, decide_eq_true_iff]

end Sys2Proof.Machine

/-! ## Runs of ticks and host commands (O32 to O35)

An initialised idle core takes three kinds of external requests: a tick moves the scan, a FLUSH rewrites `RB` and starts the
count of its rows, and any other command leaves both alone. Each claim about a run is an induction over these three. -/

namespace Sys2Proof.Machine

open Sys2Proof.Safety

/-- A core between atomic steps that admits the next tick (R175). -/
structure Ready (s : State) : Prop where
  inited : s.inited = true
  tickEn : s.tickEn = true
  seqIdle : s.seq = Seq.idle

/-- `t` has everything that a tick reads or counts from `s`, and the same requests waiting. -/
structure SameScan (s t : State) : Prop where
  inbox : t.inbox = s.inbox
  conf : t.conf = s.conf
  rb : t.rb = s.rb
  rowIdx : t.rowIdx = s.rowIdx
  rowEn : t.rowEn = s.rowEn
  pending : t.pending = s.pending
  pendLeft : t.pendLeft = s.pendLeft
  inited : t.inited = s.inited
  tickEn : t.tickEn = s.tickEn
  seq : t.seq = s.seq

/-- `Serves r s t`: the external request `r`, just taken, turns the ready core `s` into `t`. -/
inductive Serves : Request → State → State → Prop where
  /-- An admitted tick (R177). -/
  | ticked {s : State} : Serves .tick s (refresh s)
  /-- FLUSH (R131). -/
  | flushed {s : State} (rb : Mem Word) :
      Serves (encode .flush) s { s with rb := rb, pendLeft := s.conf.rowCount, pending := true, seq := Seq.idle }
  /-- Any other command, an illegal word or a second INIT among them. -/
  | other {r : Request} {s t : State} (ht : isTick r = false) (hf : isFlush r = false) (h : SameScan s t) : Serves r s t

/-! ### What a tick and loading leave in the fields of the scan -/

@[simp] theorem load_conf (requests : List Request) (s : State) : (load requests s).conf = s.conf := rfl
@[simp] theorem load_rb (requests : List Request) (s : State) : (load requests s).rb = s.rb := rfl
@[simp] theorem load_rowIdx (requests : List Request) (s : State) : (load requests s).rowIdx = s.rowIdx := rfl
@[simp] theorem rowEnabled_load (requests : List Request) (s : State) (q : Nat) :
    rowEnabled (load requests s) q = rowEnabled s q := rfl

@[simp] theorem refresh_conf (s : State) : (refresh s).conf = s.conf := by rw [refresh_eq]
@[simp] theorem refresh_rb (s : State) : (refresh s).rb = s.rb := by rw [refresh_eq]
@[simp] theorem refresh_rowIdx (s : State) : (refresh s).rowIdx = nextRow s.conf.toConfig s.rowIdx := by rw [refresh_eq]

/-- Of a count that agrees with `PENDING` (R39 (e)) an admitted tick takes one, and the two go on agreeing (R177). -/
theorem refresh_pending {s : State} (hp : s.pending = decide (0 < s.pendLeft)) :
    (refresh s).pendLeft = s.pendLeft - 1 ∧ (refresh s).pending = decide (0 < s.pendLeft - 1) := by
  rw [refresh_eq]
  cases h : s.pending with
  | true =>
    generalize s.pendLeft - 1 = n
    simp [Nat.pos_iff_ne_zero]
  | false =>
    have h0 : s.pendLeft = 0 := by simpa [h] using hp
    simp [h0]

/-- A count above 1 outlasts an admitted tick (R177). -/
theorem refresh_pending_of_lt {s : State} (hp : s.pending = true) (hleft : 1 < s.pendLeft) :
    (refresh s).pendLeft = s.pendLeft - 1 ∧ (refresh s).pending = true := by
  have h0 : s.pendLeft - 1 ≠ 0 := by omega
  rw [refresh_eq]
  simp [hp, h0]

theorem SameScan.rowEnabled {s t : State} (h : SameScan s t) (q : Nat) : rowEnabled t q = rowEnabled s q := by
  simp only [Machine.rowEnabled, lineLevel, h.rowEn]

/-! ### One request -/

theorem isFlush_flush : isFlush (encode .flush) = true := by simp [isFlush, decode_encode]

/-- A request that is no tick does not count. -/
theorem countP_isTick_cons {r : Request} (hr : isTick r = false) (rest : List Request) :
    (r :: rest).countP isTick = rest.countP isTick := List.countP_cons_of_neg (by simp [hr])

/-- A command other than FLUSH leaves the scan of a ready core alone: SET_COLOR and SET_COLOR_ALL write `FB`, WRCFG writes the
gain, and a second INIT only raises an error (R221). -/
theorem Effect.sameScan {i : Instr} {s t : State} (h : Effect i s t) (hs : Ready s) (hi : i.external = true)
    (ht : i ≠ .tick) (hf : i ≠ .flush) : SameScan s t := by
  cases h with
  | raised | colorSet => constructor <;> rfl
  | allColorsSet => rw [fillFb_eq]; constructor <;> rfl
  | gainWritten => rw [configWrite_eq]; exact ⟨rfl, rfl, rfl, rfl, rfl, rfl, rfl, rfl, rfl, hs.seqIdle.symm⟩
  | ignored | refreshed => exact absurd rfl ht
  | flushed => exact absurd rfl hf
  | started h0 => simp [hs.inited] at h0
  | lookedUp | encoded | pulsed | rowTransferred | latched | countersReset | configWritten => cases hi

/-- A ready core goes on with an external request and serves it: what the request decodes to tells which of the three it is. -/
theorem step_serves {s : State} (hs : Ready s) {r : Request} (hr : r.external = true) (rest : List Request) :
    ∃ t, step (load (r :: rest) s) = .next t ∧ Serves r (load rest s) t := by
  have hl : Ready (load rest s) := { hs with }
  have hstep : step (load (r :: rest) s) = _ := step_cons rfl
  cases hd : decode r with
  | error e =>
    rw [hd] at hstep
    refine ⟨_, hstep, ?_⟩
    cases r with
    | command w => exact .other rfl (by simp [isFlush, hd]) (by constructor <;> rfl)
    | tick | rom | encoder | pulse | rowTransfer | globalLatch | pwmReset | configWrite => cases hd
  | ok i =>
    rw [hd] at hstep
    obtain rfl := encodeOfDecodedIsTheRequest r i hd
    by_cases hit : i = .tick
    · subst hit
      exact ⟨_, hstep.trans (exec_tick_of_admitted hl.tickEn hl.seqIdle), .ticked⟩
    by_cases hif : i = .flush
    · subst hif
      exact ⟨_, hstep.trans (exec_flush_of_inited hl.inited), .flushed _⟩
    have hi := decode_external hr hd
    obtain ⟨t, he⟩ := exec_next_of_external hi (load rest s)
    have htick : isTick (encode i) = false := by
      cases i with
      | tick => exact absurd rfl hit
      | _ => rfl
    have hflush : isFlush (encode i) = false := by simp [isFlush, hd, hif]
    exact ⟨t, hstep.trans he, .other htick hflush ((exec_effect he).sameScan hl hi hit hif)⟩

/-- A served request leaves the other requests waiting, the configuration as it was and the core ready. -/
theorem Serves.frame {r : Request} {s t : State} (h : Serves r s t) (hs : Ready s) :
    t.inbox = s.inbox ∧ t.conf = s.conf ∧ Ready t := by
  cases h with
  | ticked => rw [refresh_eq]; exact ⟨rfl, rfl, { hs with seqIdle := rfl }⟩
  | flushed => exact ⟨rfl, rfl, { hs with seqIdle := rfl }⟩
  | other _ _ h => exact ⟨h.inbox, h.conf, h.inited.trans hs.inited, h.tickEn.trans hs.tickEn, h.seq.trans hs.seqIdle⟩

/-! ### A list of requests -/

/-- `Served requests s t`: a core that serves the requests in their order goes from `s` to `t`. -/
inductive Served : List Request → State → State → Prop where
  | nil (s : State) : Served [] s (load [] s)
  | cons {r : Request} {rest : List Request} {s u t : State} (hr : Serves r (load rest s) u) (h : Served rest u t) :
      Served (r :: rest) s t

/-- A ready core goes on through every list of external requests and serves them all. -/
theorem run_served {requests : List Request} (hx : ∀ r ∈ requests, r.external = true) {s : State} (hs : Ready s) :
    ∃ t, Host.Core.run Sys2Proof.core requests.length (load requests s) = .next t ∧ Served requests s t := by
  induction requests generalizing s with
  | nil => exact ⟨load [] s, rfl, .nil s⟩
  | cons r rest ih =>
    rw [List.forall_mem_cons] at hx
    obtain ⟨u, hstep, hserves⟩ := step_serves hs hx.1 rest
    obtain ⟨hinbox, -, hu⟩ := hserves.frame { hs with }
    obtain ⟨t, hrun, hserved⟩ := ih hx.2 hu
    have hload : u = load rest u := congrArg (fun l => { u with inbox := l }) hinbox
    exact ⟨t, (run_next hstep rest.length).trans (hload ▸ hrun), .cons hserves hserved⟩

/-- The run a statement speaks of is that one. -/
theorem served_of_run {requests : List Request} (hx : ∀ r ∈ requests, r.external = true) {s t : State} (hs : Ready s)
    (h : Host.Core.run Sys2Proof.core requests.length (load requests s) = .next t) : Served requests s t := by
  obtain ⟨u, hu, hserved⟩ := run_served hx hs
  obtain rfl := Host.Outcome.next.inj (hu.symm.trans h)
  exact hserved

/-- The configuration stays and the core stays ready. -/
theorem Served.frame {requests : List Request} {s t : State} (h : Served requests s t) (hs : Ready s) :
    t.conf = s.conf ∧ Ready t := by
  induction h with
  | nil => exact ⟨rfl, { hs with }⟩
  | cons hr _ ih =>
    obtain ⟨-, hconf, hu⟩ := hr.frame { hs with }
    obtain ⟨hconf', ht⟩ := ih hu
    exact ⟨hconf'.trans hconf, ht⟩

/-! ### The scan (O32) -/

/-- The row `k` rows after the next one is `k + 1` rows on (R13 (c)). -/
theorem nextRow_add_mod (c : Config) (row k : Nat) :
    (nextRow c row + k) % c.rowCount = (row + (k + 1)) % c.rowCount := by
  rw [nextRow, Nat.mod_add_mod, Nat.add_assoc, Nat.add_comm 1 k]

/-- Each tick moves `ROWIDX` to the next row, and nothing else moves it (R182). -/
theorem Served.rowIdx {requests : List Request} {s t : State} (h : Served requests s t) (hs : s.rowIdx < s.conf.rowCount) :
    t.rowIdx = (s.rowIdx + requests.countP isTick) % s.conf.rowCount := by
  induction h with
  | nil s => exact (Nat.mod_eq_of_lt hs).symm
  | cons hr _ ih =>
    cases hr with
    | ticked =>
      simp only [refresh_rowIdx, refresh_conf, load_rowIdx, load_conf] at ih
      rw [ih (nextRow_lt ..), List.countP_cons_of_pos rfl, nextRow_add_mod]
    | flushed => exact ih hs
    | other ht _ h =>
      rw [h.rowIdx, h.conf] at ih
      rw [ih hs, countP_isTick_cons ht, load_rowIdx, load_conf]

/-- Commands leave the row lines alone; after a tick the row of the last one is enabled and no other (R179). -/
theorem Served.rowEnabled_eq {requests : List Request} {s t : State} (h : Served requests s t)
    (hs : s.rowIdx < s.conf.rowCount) {q : Nat} (hq : q < s.conf.rowCount) :
    rowEnabled t q = if requests.countP isTick = 0 then rowEnabled s q
      else decide (q = (s.rowIdx + (requests.countP isTick - 1)) % s.conf.rowCount) := by
  induction h with
  | nil s => rfl
  | @cons _ rest s _ _ hr _ ih =>
    cases hr with
    | ticked =>
      have hlit : rowEnabled (refresh (load rest s)) q = decide (q = s.rowIdx) := rowEnabled_refresh_of_lt hq
      simp only [refresh_rowIdx, refresh_conf, load_rowIdx, load_conf, hlit, nextRow_add_mod] at ih
      rw [ih (nextRow_lt ..) hq, List.countP_cons_of_pos rfl, if_neg (Nat.succ_ne_zero _), Nat.add_sub_cancel]
      split
      · next h0 => rw [h0, Nat.add_zero, Nat.mod_eq_of_lt hs]
      · next h0 => rw [Nat.sub_add_cancel (Nat.pos_of_ne_zero h0)]
    | flushed => exact ih hs hq
    | other ht _ h =>
      rw [h.rowIdx, h.conf, h.rowEnabled] at ih
      rw [ih hs hq, countP_isTick_cons ht, rowEnabled_load, load_rowIdx, load_conf]

/-- Which row that is, if a tick came. -/
theorem Served.rowEnabled_iff {requests : List Request} {s t : State} (h : Served requests s t)
    (hs : s.rowIdx < s.conf.rowCount) (hpos : 0 < requests.countP isTick) {q : Nat} (hq : q < s.conf.rowCount) :
    rowEnabled t q = true ↔ q = (s.rowIdx + (requests.countP isTick - 1)) % s.conf.rowCount := by
  rw [h.rowEnabled_eq hs hq, if_neg hpos.ne', decide_eq_true_iff]

/-- Two numbers of ticks within one row set that lead to the same row are the same. -/
theorem eq_of_add_mod_eq {n row j k : Nat} (hj : j < n) (hk : k < n) (h : (row + j) % n = (row + k) % n) : j = k :=
  (Nat.ModEq.add_left_cancel' row h).eq_of_lt_of_lt hj hk

/-- Every row is some number of ticks, fewer than a row set, from `ROWIDX`. -/
theorem exists_add_mod_eq {n row q : Nat} (hrow : row < n) (hq : q < n) : ∃ k < n, (row + k) % n = q := by
  obtain hlt | hle := Nat.lt_or_ge q row
  · refine ⟨q + n - row, by omega, ?_⟩
    rw [Nat.add_sub_cancel' (by omega), Nat.add_mod_right, Nat.mod_eq_of_lt hq]
  · exact ⟨q - row, by omega, by rw [Nat.add_sub_cancel' hle, Nat.mod_eq_of_lt hq]⟩

theorem countP_isTick_replicate (n : Nat) : (List.replicate n Request.tick).countP isTick = n := by
  simp [List.countP_replicate, isTick]

/-- Settles O32: each row is the `k`-th after `ROWIDX` for one `k` below `ROW_COUNT`, and the row that the requests enable is the one
their last tick reached. A list of ticks alone shows that no other `k` will do. -/
theorem scanVisitsEveryRowOnce : Obligations.ScanVisitsEveryRowOnce := by
  intro s hi ht hq hrow
  have hs : Ready s := ⟨hi, ht, hq⟩
  refine ⟨fun requests hx => ?run, fun q hq => ?once⟩
  case run =>
    obtain ⟨t, hrun, h⟩ := run_served hx hs
    exact ⟨t, hrun, h.rowIdx hrow, fun hpos q hq => h.rowEnabled_iff hrow hpos hq⟩
  case once =>
    obtain ⟨k, hk, hkq⟩ := exists_add_mod_eq hrow hq
    refine ⟨k, ⟨hk, fun requests t hx hn hrun => ?_⟩, fun j ⟨hj, hall⟩ => ?_⟩
    · rw [(served_of_run hx hs hrun).rowEnabled_iff hrow (by omega) hq, hn, Nat.add_sub_cancel, hkq]
    · have hx : ∀ r ∈ List.replicate (j + 1) Request.tick, r.external = true := fun r hr => by
        rw [List.eq_of_mem_replicate hr]; rfl
      have hn := countP_isTick_replicate (j + 1)
      obtain ⟨t, hrun, h⟩ := run_served hx hs
      have hjq := (h.rowEnabled_iff hrow (by omega) hq).1 (hall _ t hx hn hrun)
      rw [hn, Nat.add_sub_cancel, ← hkq] at hjq
      exact eq_of_add_mod_eq hj hk hjq.symm

/-! ### The pending frame (O35) -/

/-- Without a FLUSH each tick counts one row, and `PENDING` is 1 as long as the count is not 0 (R181). -/
theorem Served.pendLeft {requests : List Request} {s t : State} (h : Served requests s t)
    (hf : ∀ r ∈ requests, isFlush r = false) (hp : s.pending = decide (0 < s.pendLeft)) :
    t.pendLeft = s.pendLeft - requests.countP isTick ∧ t.pending = decide (0 < t.pendLeft) := by
  induction h with
  | nil s => exact ⟨rfl, hp⟩
  | @cons _ rest s _ _ hr _ ih =>
    rw [List.forall_mem_cons] at hf
    cases hr with
    | ticked =>
      obtain ⟨hleft, hpend⟩ := refresh_pending (s := load rest s) hp
      rw [hleft, hpend] at ih
      rw [List.countP_cons_of_pos rfl, Nat.add_comm, ← Nat.sub_sub]
      exact ih hf.2 rfl
    | flushed => exact absurd hf.1 (by simp [isFlush_flush])
    | other ht _ h =>
      rw [h.pending, h.pendLeft] at ih
      rw [countP_isTick_cons ht]
      exact ih hf.2 hp

/-- Settles O35: FLUSH sets the count to `ROW_COUNT`, and every tick after it counts one row down. -/
theorem pendingLastsOneFullRowSetCycle : Obligations.PendingLastsOneFullRowSetCycle := by
  intro s requests hi ht hx
  obtain ⟨t, hrun, h⟩ := run_served (fun r hr => (hx r hr).1)
    (s := { s with rb := writeFrame s.conf s.fb s.conf.ledCount [], pendLeft := s.conf.rowCount, pending := true,
                   seq := Seq.idle }) ⟨hi, ht, rfl⟩
  obtain ⟨hleft, hpend⟩ := h.pendLeft (fun r hr => (hx r hr).2) (by simp [s.conf.rowCount_pos])
  refine ⟨t, (run_load_encode (exec_flush_of_inited (s := load requests s) hi) _).trans hrun, hleft, ?_⟩
  rw [hpend, hleft]
  exact decide_eq_decide.2 Nat.sub_pos_iff_lt

/-! ### The picture of a row between FLUSHes (O33, O34) -/

/-- Nothing but FLUSH writes the RowBuffers (R61). -/
theorem Served.rb {requests : List Request} {s t : State} (h : Served requests s t)
    (hf : ∀ r ∈ requests, isFlush r = false) : t.rb = s.rb := by
  induction h with
  | nil => rfl
  | cons hr _ ih =>
    rw [List.forall_mem_cons] at hf
    cases hr with
    | ticked => rw [ih hf.2, refresh_rb, load_rb]
    | flushed => exact absurd hf.1 (by simp [isFlush_flush])
    | other _ _ h => rw [ih hf.2, h.rb, load_rb]

/-- `PENDING` outlasts fewer ticks than the count, and fewer than a row set if further FLUSHes come (R181). -/
theorem Served.pending_of_lt {requests : List Request} {s t : State} (h : Served requests s t) (hp : s.pending = true)
    (hleft : requests.countP isTick < s.pendLeft) (hn : requests.countP isTick < s.conf.rowCount) : t.pending = true := by
  induction h with
  | nil => exact hp
  | @cons _ rest s _ _ hr _ ih =>
    cases hr with
    | ticked =>
      rw [List.countP_cons_of_pos rfl] at hleft hn
      have hmore : 1 < s.pendLeft := by omega
      obtain ⟨hl, hpend⟩ := refresh_pending_of_lt (s := load rest s) hp hmore
      rw [hl, hpend, refresh_conf] at ih
      exact ih rfl (Nat.lt_sub_of_add_lt hleft) (Nat.lt_of_succ_lt hn)
    | flushed => exact ih rfl hn hn
    | other ht _ h =>
      rw [countP_isTick_cons ht] at hleft hn
      exact ih (h.pending.trans hp) (h.pendLeft ▸ hleft) (h.conf ▸ hn)

/-- Fewer ticks than a row set cannot clear `PENDING` after a FLUSH: with it clear after them, none came, and `RB` stands. -/
theorem Served.rb_of_pending_clear {requests : List Request} {s t : State} (h : Served requests s t)
    (hn : requests.countP isTick < s.conf.rowCount) (hp : t.pending = false) : t.rb = s.rb := by
  induction h with
  | nil => rfl
  | cons hr hrest ih =>
    cases hr with
    | ticked =>
      rw [List.countP_cons_of_pos rfl] at hn
      rw [ih (by rw [refresh_conf]; exact Nat.lt_of_succ_lt hn) hp, refresh_rb, load_rb]
    | flushed =>
      have htrue := hrest.pending_of_lt rfl hn hn
      simp [hp] at htrue
    | other ht _ h =>
      rw [countP_isTick_cons ht] at hn
      rw [ih (h.conf ▸ hn) hp, h.rb, load_rb]

/-- `ROW_COUNT` ticks lead back to the same row, which is sent as before if `RB` is as before (R180). -/
theorem Served.tickEvents {requests : List Request} {s t : State} (h : Served requests s t) (hs : Ready s)
    (hrow : s.rowIdx < s.conf.rowCount) (hn : requests.countP isTick = s.conf.rowCount) (hrb : t.rb = s.rb) :
    tickEvents t = tickEvents s := by
  obtain ⟨hconf, ht⟩ := h.frame hs
  have hidx : t.rowIdx = s.rowIdx := by
    rw [h.rowIdx hrow, hn, Nat.add_mod_right, Nat.mod_eq_of_lt hrow]
  exact tickEventsDependOnRowBuffersOnly t s hconf hrb hidx (ht.tickEn.trans hs.tickEn.symm)
    (ht.seqIdle.trans hs.seqIdle.symm)

/-- Settles O34: without a FLUSH the RowBuffers stand. -/
theorem tickRepeatsItsRowsPreviousTick : Obligations.TickRepeatsItsRowsPreviousTick := by
  intro s t requests hi ht hq hrow hx hn hrun
  have hs : Ready s := ⟨hi, ht, hq⟩
  have h := served_of_run (fun r hr => (hx r hr).1) hs hrun
  exact h.tickEvents hs hrow hn (h.rb fun r hr => (hx r hr).2)

/-- Settles O33: after the earlier tick come fewer ticks than a row set, so `PENDING` clear at their end shuts a FLUSH out. -/
theorem tickWithPendingClearRepeats : Obligations.TickWithPendingClearRepeats := by
  intro s t requests hi ht hq hrow hx hn hrun hp
  have hs : Ready s := ⟨hi, ht, hq⟩
  have h := served_of_run (requests := .tick :: requests) (List.forall_mem_cons.2 ⟨rfl, hx⟩) hs hrun
  refine h.tickEvents hs hrow ((List.countP_cons_of_pos rfl).trans hn) ?_
  cases h with
  | cons hr hrest =>
    cases hr with
    | ticked =>
      have hlt : requests.countP isTick < s.conf.rowCount := by omega
      rw [hrest.rb_of_pending_clear (by rwa [refresh_conf]) hp, refresh_rb, load_rb]
    | other ht => cases ht

end Sys2Proof.Machine

/-! ## INIT and WRCFG (O38, O39)

Both contain a configuration write, whose two bursts are one append to each trace in the closed form and two in the statements. -/

namespace Sys2Proof.Machine

/-- INIT after INIT (R221). -/
theorem exec_init_of_inited {s : State} (hs : s.inited = true) :
    exec .init s = .next (raise .alreadyInitialized 0 s) := by
  simp [exec, execInit_eq, hs]

/-- A first INIT (R201). -/
theorem exec_init_of_not_inited {s : State} (hs : s.inited = false) : exec .init s = .next (startUp s) := by
  simp [exec, execInit_eq, hs]

/-- Settles O38: a first INIT empties `RB` and drives every row line of the device off. -/
theorem initStartsTheCoreOnce : Obligations.InitStartsTheCoreOnce := by
  refine fun s => ⟨exec_init_of_inited, fun hs v hv =>
    ⟨[], rowsOff s.conf.rowCount s.rowEn, ?effect, fun row slot _ _ => Mem.read_nil 0 _, fun q hq => ?rowOff⟩⟩
  case effect =>
    rw [exec_init_of_not_inited hs, startUp_eq, configValue, ← hv]
    simp only [configEvents, configCalls, List.append_assoc]
  case rowOff => rw [read_rowsOff, if_pos hq]

/-- WRCFG before INIT (R205). -/
theorem exec_wrcfg_of_not_inited {s : State} (hs : s.inited = false) (gain8 : BitVec 8) :
    exec (.wrcfg gain8) s = .next (raise .notInitialized 0 s) := by
  simp [exec, execWrcfg_eq, hs]

/-- WRCFG after INIT is a configuration write that ends idle (R205). -/
theorem exec_wrcfg_of_inited {s : State} (hs : s.inited = true) (gain8 : BitVec 8) :
    exec (.wrcfg gain8) s = .next (returnToIdle (configWrite gain8 s)) := by
  simp [exec, execWrcfg_eq, hs]

/-- Settles O39, by the closed form of a configuration write. -/
theorem wrcfgRewritesTheGain : Obligations.WrcfgRewritesTheGain := by
  refine fun s gain8 => ⟨fun hs => exec_wrcfg_of_not_inited hs gain8, fun hs v hv => ?written⟩
  case written =>
    rw [exec_wrcfg_of_inited hs, configWrite_eq, configValue, ← hv]
    simp only [returnToIdle, configEvents, configCalls, List.append_assoc]

end Sys2Proof.Machine

/-! ## Errors (O40, O41) -/

namespace Sys2Proof.Machine

/-- Settles O41: an error writes one field, and each of its codes is the one of R216. -/
theorem raiseWritesStatusOnly : Obligations.RaiseWritesStatusOnly :=
  ⟨fun _ _ _ => rfl, rfl, rfl, rfl, rfl⟩

/-- Settles O40: each of the four commands checks `INITED` first, and O41 says what the error it raises writes. -/
theorem commandsBeforeInitRaiseNotInitialized : Obligations.CommandsBeforeInitRaiseNotInitialized := by
  intro s i hs hi
  obtain ⟨hraise, -, hcode, -⟩ := raiseWritesStatusOnly
  rw [← hcode, ← hraise]
  obtain rfl | ⟨index, r, g, b, rfl⟩ | ⟨r, g, b, rfl⟩ | ⟨gain8, rfl⟩ := hi
  · exact exec_flush_of_not_inited hs
  · exact exec_setColor_of_not_inited hs index r g b
  · exact exec_setColorAll_of_not_inited hs r g b
  · exact exec_wrcfg_of_not_inited hs gain8

end Sys2Proof.Machine

/-! ## Reset and the idle core (O7, O44, O45) -/

namespace Sys2Proof.Machine

open Sys2Proof.Safety

/-- Settles O7, by the equation of a step with no request waiting. -/
theorem stepWithoutRequestChangesNothing : Obligations.StepWithoutRequestChangesNothing := fun _ => step_nil

/-- `FB` as reset draws it (R40). -/
theorem readFb_resetWith (d : Device) (u : PowerOn) {i : Nat} (hi : i < d.ledCount) :
    readFb (State.resetWith d u) i = u.fb i :=
  Mem.read_ofFn _ _ _ hi

/-- `RB` as reset draws it, addressed by row and slot (R40, R54). -/
theorem readRb_resetWith (d : Device) (u : PowerOn) {row slot : Nat} (hr : row < d.rowCount) (hs : slot < d.rowSlots) :
    readRb (State.resetWith d u) row slot = u.rb (rbAddr d.toConfig row slot) :=
  Mem.read_ofFn _ _ _ (d.rbAddr_lt hr hs)

/-- The row lines as reset draws them (R40, R257). -/
theorem rowEnabled_resetWith (d : Device) (u : PowerOn) {q : Nat} (hq : q < d.rowCount) :
    rowEnabled (State.resetWith d u) q = u.rowEn q :=
  Mem.read_ofFn _ _ _ hq

/-- Settles O44: each memory holds its draw up to its size, a drawn `ROWIDX` is reduced into its range (R26), and every other field
is written out in the reset state. -/
theorem resetLeavesTheStatedValues : Obligations.ResetLeavesTheStatedValues := by
  refine fun d u => ⟨rfl, rfl, rfl, rfl, rfl, rfl, rfl, rfl, fun _ => readFb_resetWith d u, fun _ _ => readRb_resetWith d u,
    ?rowIdxRange, ?rowIdxDrawn, rfl, rfl, fun _ => rowEnabled_resetWith d u⟩
  case rowIdxRange => exact Nat.mod_lt _ d.rowCount_pos
  case rowIdxDrawn => exact Nat.mod_eq_of_lt

/-- Settles O45: the step takes the tick, and with `TICK_EN = 0` it is not admitted (R175). -/
theorem ticksAfterResetAreIgnored : Obligations.TicksAfterResetAreIgnored := by
  intro d u
  have htick : (State.resetWith d u).tickEn = false := rfl
  calc step (load [.tick] (State.resetWith d u))
      = exec .tick (State.resetWith d u) := stepRunsTheDecodedInstruction _ .tick [] .tick rfl rfl
    _ = .next (State.resetWith d u) := exec_tick_of_not_admitted (.inl htick)

end Sys2Proof.Machine
